-- ==== Sys2Proof/Word.lean ====
section
/-! DEFINITION. The widths of the block (00_scope.md R8): data words, samples, result registers, bus addresses. -/

namespace Sys2Proof

/-- A host bus data word or a register, 32 bits (R8). -/
abbrev Word := BitVec 32

/-- A sample: 16-bit two's complement (R8). -/
abbrev Sample := BitVec 16

/-- A 64-bit result register, `PE_CORR` or `PE_ENERGY` (R8). -/
abbrev DWord := BitVec 64

/-- A host bus address: 13 bits of byte address inside the 8 KiB window (R8, R48). -/
abbrev BusAddr := BitVec 13

end Sys2Proof
end

