-- ==== Sys2Proof/Syntax.lean ====
section
/-! DEFINITION. The commands of the opcode table (R68), the fields of format C (R66), and the names by which an
illegal word is rejected (R69). -/

namespace Sys2Proof

/-- The five commands: one constructor per row of spec/opcode_table.json. No command has an operand field (R67);
`LOST`, the only operand bit, is what tells `frameGood` from `frameLost`. -/
inductive Instr where
  /-- `nop`, word 0x00000000 (R80). -/
  | nop
  /-- `frame.good`, word 0x00000001 (R119). -/
  | frameGood
  /-- `frame.lost`, word 0x00000011 (R111). -/
  | frameLost
  /-- `pe.run`, word 0x00000002 (R101). -/
  | peRun
  /-- `snap`, word 0x00000003 (R126). -/
  | snap
deriving DecidableEq, Repr

/-- Format C (R66), the one instruction format: `OP` in bits 3:0, `LOST` in bit 4, `RSVD` in bits 31:5. -/
structure FormatC where
  op   : BitVec 4
  lost : Bool
  rsvd : BitVec 27
deriving DecidableEq, Repr

/-- Why a word is no command: the three cases R69 lists. -/
inductive Reject where
  /-- Some `RSVD` bit is set. -/
  | reservedBits
  /-- `LOST = 1` with `OP ≠ 0x1`. -/
  | strayLost
  /-- `OP` in 0x4–0xF. -/
  | unknownOp
deriving DecidableEq, Repr

end Sys2Proof
end

