-- ==== Sys2Proof/WellFormed.lean ====
section
/-! DEFINITION. What format C admits (R66, R69). A command has no operand field (R67), so every term of `Instr` is
well formed as it stands; the checks are those on the fields of a word. -/

namespace Sys2Proof

/-- The first of R69's checks that the fields fail, or none. -/
def FormatC.check (f : FormatC) : Option Reject :=
  if f.rsvd ≠ 0 then some .reservedBits
  else if f.lost && f.op ≠ 1 then some .strayLost
  else if 4 ≤ f.op.toNat then some .unknownOp
  else none

/-- The fields are those of a legal word. -/
def FormatC.wf (f : FormatC) : Bool := f.check.isNone

/-- The fields R68 gives each command. -/
def Instr.format : Instr → FormatC
  | .nop       => { op := 0x0, lost := false, rsvd := 0 }
  | .frameGood => { op := 0x1, lost := false, rsvd := 0 }
  | .frameLost => { op := 0x1, lost := true,  rsvd := 0 }
  | .peRun     => { op := 0x2, lost := false, rsvd := 0 }
  | .snap      => { op := 0x3, lost := false, rsvd := 0 }

/-- A command is well formed when its fields pass the checks of format C. -/
def Instr.wf (i : Instr) : Bool := i.format.wf

end Sys2Proof
end

