-- ==== Sys2Proof/Decode.lean ====
section
/-! DEFINITION. The decoder of command words and, after it, the encoder (30_encoding.md). -/

namespace Sys2Proof

/-- The fields of a word (R66). -/
def formatOf (w : Word) : FormatC :=
  { op := w.extractLsb' 0 4, lost := w.getLsbD 4, rsvd := w.extractLsb' 5 27 }

/-- Which of R69's cases makes a word illegal. -/
def rejectReason (w : Word) : Reject := (formatOf w).check.getD .unknownOp

/-- The decoder of R68: it compares the whole word with the five values (mask 0xFFFFFFFF). Every other word is
illegal (R69) and rejected by name. -/
def decode (w : Word) : Except Reject Instr :=
  if w = 0x00000000 then .ok .nop
  else if w = 0x00000001 then .ok .frameGood
  else if w = 0x00000011 then .ok .frameLost
  else if w = 0x00000002 then .ok .peRun
  else if w = 0x00000003 then .ok .snap
  else .error (rejectReason w)

/-- The word of `nbits` bits numbered as spec/opcode_table.json numbers them, the bits above `nbits` zero. A command
is one 32-bit word and the bus moves whole words (R54, R66), so the word is given to the decoder as it is. -/
def tableWord (nbits w : Nat) : Word := BitVec.ofNat 32 (w % 2 ^ nbits)

/-- The command the decoder reads from a table row's word; a word of more than 32 bits is of no format (R66). -/
def decodeTableWord (nbits w : Nat) : Option Instr :=
  if nbits ≤ 32 then (decode (tableWord nbits w)).toOption else none

/-- The bits of format C, most significant first: `RSVD`, `LOST`, `OP` (R66). -/
def wordOf (f : FormatC) : Word := f.rsvd ++ (BitVec.ofBool f.lost ++ f.op)

/-- The word of a command: the bits of its fields (R66, R68). -/
def encode (i : Instr) : Word := wordOf i.format

end Sys2Proof
end

