-- ==== Sys2Proof/Config.lean ====
section
/-! DEFINITION. The implementation parameters (R6), those derived from them by formula (R7), the address map's
constants (R21, R49), the open parameters (R77, R157) and the free values. -/

namespace Sys2Proof.Config

/-! ### The fixed parameters of R6 -/

@[simp] abbrev SAMPLE_RATE : Nat := 8000
@[simp] abbrev FRAME_SIZE : Nat := 80
@[simp] abbrev PITCH_MIN : Nat := 40
@[simp] abbrev PITCH_MAX : Nat := 120
@[simp] abbrev NDEC : Nat := 2
@[simp] abbrev CORR_LEN : Nat := 160
@[simp] abbrev CORR_MIN_POWER : Nat := 250
@[simp] abbrev OVERLAP_MAX : Nat := 30
@[simp] abbrev HISTORY_LEN : Nat := 390
@[simp] abbrev END_OVERLAP_INCR : Nat := 32
@[simp] abbrev MUTE_AFTER : Nat := 5
@[simp] abbrev SHORT_EXT_MAX : Nat := 2

/-- `ATTEN_FACTOR = 0.2` is held exactly, as the fraction `ATTEN_NUM / ATTEN_DEN = 1/5` (R6, R82, R107). -/
@[simp] abbrev ATTEN_NUM : Nat := 1
/-- The denominator of `ATTEN_FACTOR`. -/
@[simp] abbrev ATTEN_DEN : Nat := 5

/-! ### The parameters R7 derives by formula -/

@[simp] abbrev PITCH_DIFF : Nat := PITCH_MAX - PITCH_MIN
@[simp] abbrev CORR_BUF_LEN : Nat := CORR_LEN + PITCH_MAX
/-- The denominator of `ATTEN_INCR = ATTEN_FACTOR / FRAME_SIZE = 1/400`; its numerator is `ATTEN_NUM`. -/
@[simp] abbrev ATTEN_SCALE : Nat := ATTEN_DEN * FRAME_SIZE

/-- The number of lags in `LAG_COARSE_SET = {0, NDEC, …, PITCH_DIFF}`: 41. -/
@[simp] abbrev COARSE_COUNT : Nat := PITCH_DIFF / NDEC + 1

/-! ### The address map (R21, R49) -/

@[simp] abbrev ID_VALUE : Word := 0x504C4301
@[simp] abbrev WINDOW_BYTES : Nat := 0x2000
@[simp] abbrev FIN_BASE : Nat := 0x0400
@[simp] abbrev FOUT_BASE : Nat := 0x0600
@[simp] abbrev HIST_BASE : Nat := 0x0800
@[simp] abbrev PBUF_BASE : Nat := 0x1000
@[simp] abbrev LASTQ_BASE : Nat := 0x1800

/-! ### Open parameters: no rule depends on their values (log entry 8) -/

/-- `LAT_MAX`, the largest number of clock cycles from acceptance to completion (R77, R157): OPEN. -/
opaque latMax : Nat

/-- `f_clk` in hertz, a platform parameter (R157): OPEN. -/
opaque fClk : Nat

/-! ### Free values: nothing can be proved of them -/

/-- `ANY` of R52: the value of the n-th read that the block leaves unspecified (log entry 3). -/
opaque anyWord : Nat → Word

/-- A sample EXTRACT returns outside the contract R103 states for its callers, as a function of what EXTRACT
reads: `PBUF`, `CYCLE_LEN`, `OFFSET` and the sample's position (log entry 9). -/
opaque unstatedExtract : List (Nat × Sample) → Word → Word → Nat → Sample

/-- The `OFFSET` EXTRACT leaves outside its contract, from `CYCLE_LEN`, `OFFSET` and the size (log entry 9). -/
opaque unstatedOffset : Word → Word → Nat → Word

/-- A sample the self-stitch writes where R113's index bounds fail, as a function of `PBUF`, `LASTQ`, `OVERLAP`,
`CYCLE_LEN` and the position (log entry 9). -/
opaque unstatedStitch : List (Nat × Sample) → List (Nat × Sample) → Word → Word → Nat → Sample

end Sys2Proof.Config
end

