-- ==== Sys2Proof/Machine/State.lean ====
section
/-! DEFINITION. The state: the spec's record (R15) as `Block`, and around it what the model needs of the world
outside the block (whose turn it is, what a read returned, how many unspecified values were drawn). -/

namespace Sys2Proof.Machine

/-- A sample memory: (element index, sample) pairs in canonical form, that is indices strictly rising and no entry 0;
an unlisted element is 0, the spec's own reset content (R47). Log entry 5. -/
abbrev Memory := List (Nat × Sample)

/-- The error codes of R133. Codes 7–15 are reserved and never recorded; no value of this type stands for one
(log entry 6). -/
inductive ErrCode where
  /-- 0, no error recorded. -/
  | noError
  /-- 1, a word written to CMD is no command. -/
  | illegalCmd
  /-- 2, a write while a command is pending. -/
  | busy
  /-- 3, a frame command in a corrupted engine state. -/
  | state
  /-- 4, an unmapped or misaligned address. -/
  | addr
  /-- 5, a write to the burst's frozen material. -/
  | wprot
  /-- 6, a word that is no sign-extended sample. -/
  | range
deriving DecidableEq, Repr

/-- The complete state of the block: exactly the fields of R15. -/
structure Block where
  /-- History Buffer, 390 samples, element 0 the oldest (R39). -/
  hist : Memory
  /-- Pitch Buffer, 390 samples (R40). -/
  pbuf : Memory
  /-- Last-Quarter Wave, 30 samples (R41). -/
  lastq : Memory
  /-- Frame input buffer, 80 samples (R37). -/
  fin : Memory
  /-- Frame output buffer, 80 samples (R38). -/
  fout : Memory
  /-- `ERASE_CNT` (R25). -/
  eraseCnt : Word
  /-- `PITCH` (R26). -/
  pitch : Word
  /-- `OVERLAP` (R27). -/
  overlap : Word
  /-- `CYCLE_LEN` (R28). -/
  cycleLen : Word
  /-- `OFFSET` (R29). -/
  offset : Word
  /-- `PE_PITCH` (R32). -/
  pePitch : Word
  /-- `PE_COARSE_LAG` (R33). -/
  peCoarseLag : Word
  /-- `PE_LAG` (R34). -/
  peLag : Word
  /-- `PE_CORR`, two's complement (R35). -/
  peCorr : DWord
  /-- `PE_ENERGY`, unsigned (R36). -/
  peEnergy : DWord
  /-- `ERR`, sticky (R24, R134). -/
  err : Bool
  /-- `ERR_CODE`, the first error since `ERR` was last cleared (R24, R133). -/
  errCode : ErrCode
  /-- `PEND`: the command word accepted and not yet completed (R42). -/
  pend : Option Word
deriving DecidableEq, Repr

/-- One step's mover. The host's accesses take effect one at a time in the order it issues them (R59); the engine
moves at a step of its own (R76); the reset input is external (R147). -/
inductive Turn where
  /-- The engine's step. -/
  | engine
  /-- A host read of the word at a byte address (R52). -/
  | read (a : BusAddr)
  /-- A host write of a word at a byte address (R53). -/
  | write (a : BusAddr) (w : Word)
  /-- The reset input is asserted, and stays so until a `release` (R147). -/
  | reset
  /-- The reset input is released (R147). -/
  | release
deriving DecidableEq, Repr

/-- The machine: the block, and the model's own fields (log entries 1 to 3 and 11). -/
structure State where
  /-- The block's complete state (R15). -/
  blk : Block
  /-- Who moves next, and the host's accesses still to come; with no turn listed the engine moves (log entry 1). -/
  turns : List Turn
  /-- The word the host's latest read returned; none before the first read and after one that was not answered
  (log entries 2 and 11). -/
  rdata : Option Word
  /-- How many unspecified read values have been drawn: the index of the next free value (log entry 3). -/
  draws : Nat
  /-- The reset input is asserted (R147). How long it stays so is the list of turns' to say (log entry 11). -/
  inReset : Bool
deriving DecidableEq, Repr

/-- Why the machine stops. The block itself has no trap and stops at no error (R137). -/
inductive Fault where
  /-- `PEND` holds a word that is none of the five commands. Raised by the engine's step. Only acceptance sets `PEND`,
  and it validates first (R42, R74, R75), so no run from reset reaches it. Safe (log entry 7). -/
  | illegalPending (why : Reject)
deriving DecidableEq, Repr

/-- Why an instruction has no meaning here. -/
inductive Refusal where
  /-- The command has no meaning yet. Raised by an arm of `exec`; no arm raises it. Safe. -/
  | notModelled (mnemonic : String)
deriving DecidableEq, Repr

/-- Every field of the block after a hardware or soft reset (R47, R147, R148). -/
def Block.reset : Block :=
  { hist := [], pbuf := [], lastq := [], fin := [], fout := []
    eraseCnt := 0, pitch := 0, overlap := 0, cycleLen := 0, offset := 0
    pePitch := 0, peCoarseLag := 0, peLag := 0, peCorr := 0, peEnergy := 0
    err := false, errCode := .noError, pend := none }

/-- The machine right after reset (R47, R147): the block at its reset values, the reset input released, the host
silent. -/
def State.reset : State := { blk := Block.reset, turns := [], rdata := none, draws := 0, inReset := false }

end Sys2Proof.Machine
end

