-- ==== Sys2Proof/Machine/Ops.lean ====
section
/-! DEFINITION. The shared operations: sample memories, exact arithmetic (R12), recording an error and leaving the
error record (R134, R138), the saturating counter (R117). -/

namespace Sys2Proof.Machine

/-- The machine with its block replaced; the model's own fields stay. -/
def State.withBlk (s : State) (b : Block) : State := { s with blk := b }

/-! ### Sample memories -/

/-- Element `k` of a sample memory; an unlisted element is 0. -/
def Memory.get : Memory → Nat → Sample
  | [], _ => 0
  | (i, v) :: m, k => if i = k then v else Memory.get m k

/-- The memory without element `k` (which then reads 0). -/
def Memory.erase (m : Memory) (k : Nat) : Memory := m.filter (fun c => c.1 != k)

/-- The memory with an entry put at its place in the rising order. -/
def Memory.insert : Memory → Nat → Sample → Memory
  | [], k, v => [(k, v)]
  | c :: m, k, v => if k < c.1 then (k, v) :: c :: m else c :: Memory.insert m k v

/-- `M[k] <- v`, keeping the canonical form: writing 0 removes the entry. -/
def Memory.set (m : Memory) (k : Nat) (v : Sample) : Memory :=
  if v = 0 then m.erase k else (m.erase k).insert k v

/-- The memory whose elements `k, k+1, …, k+n-1` are given by `f`, all others 0. -/
def Memory.buildFrom (f : Nat → Sample) : Nat → Nat → Memory
  | 0, _ => []
  | n + 1, k =>
    let v := f k
    if v = 0 then Memory.buildFrom f n (k + 1) else (k, v) :: Memory.buildFrom f n (k + 1)

/-- `M[0..n) <- f`, written element by element (R10). -/
def Memory.build (n : Nat) (f : Nat → Sample) : Memory := Memory.buildFrom f n 0

/-- Strictly rising indices from `lo` on, all below `n`, and no entry 0. -/
def Memory.wfFrom (n : Nat) : Nat → Memory → Bool
  | _, [] => true
  | lo, (k, v) :: m => decide (lo ≤ k) && decide (k < n) && decide (v ≠ 0) && Memory.wfFrom n (k + 1) m

/-- The canonical form of a sample memory of `n` elements (log entry 5). -/
def Memory.wf (n : Nat) (m : Memory) : Bool := Memory.wfFrom n 0 m

/-- Element `k` as the integer it stands for (R9, `s16`). -/
def Memory.at (m : Memory) (k : Nat) : Int := (m.get k).toInt

/-! ### Exact arithmetic (R12) -/

/-- `tdiv(n, d)`: `n / d` rounded toward zero. -/
def tdiv (n d : Int) : Int := n.sign * ((n.natAbs / d.natAbs : Nat) : Int)

/-- `clamp16(v)`: `v` limited to [-32768, 32767]. -/
def clamp16 (v : Int) : Int := if v < -32768 then -32768 else if 32767 < v then 32767 else v

/-- The sample that stands for an integer of [-32768, 32767]. -/
def toSample (v : Int) : Sample := BitVec.ofInt 16 v

/-- The sum of `f 0, …, f (n-1)`. -/
def sumTo (n : Nat) (f : Nat → Int) : Int :=
  match n with
  | 0 => 0
  | n + 1 => sumTo n f + f n

/-- `sat32(v) = min(v, 2^32 − 1)` (R117). -/
def sat32 (v : Nat) : Word := BitVec.ofNat 32 (min v 0xFFFFFFFF)

/-! ### The error record, the block's only exception mechanism (R137) -/

/-- `raise Error(code)` (R134): the first error since the last clear is kept; nothing else changes. -/
def raiseError (b : Block) (c : ErrCode) : Block :=
  if b.err then b else { b with err := true, errCode := c }

/-- The way out of the error record (R24, R138): `ERR <- 0; ERR_CODE <- 0`. -/
def clearError (b : Block) : Block := { b with err := false, errCode := .noError }

/-- `soft_reset()` (R148): exactly the effect of a hardware reset; a pending command is cancelled. -/
def softReset (_b : Block) : Block := Block.reset

end Sys2Proof.Machine
end

