-- ==== Sys2Proof/Machine/Operands.lean ====
section
/-! DEFINITION. Operands. A command's operands are implicit (R67), so the operand forms are the sample memories as
sequences, and the targets a bus address names (R20, R49, R50, R51). -/

namespace Sys2Proof.Machine

/-! ### Samples on the bus (R51) -/

/-- A word is a legal sample word exactly when its bits [31:15] are all 0 or all 1. -/
def legalSampleWord (w : Word) : Bool :=
  w.extractLsb' 15 17 == 0 || w.extractLsb' 15 17 == BitVec.allOnes 17

/-- `s16(w)`: the sample in bits [15:0] of a word (R9). -/
def sampleOfWord (w : Word) : Sample := w.extractLsb' 0 16

/-- A sample occupies a word as its sign extension. -/
def wordOfSample (v : Sample) : Word := v.signExtend 32

/-! ### Registers (R20) -/

/-- The 18 registers of the register block. -/
inductive Reg where
  | id | ctrl | cmd | status | eraseCnt | pitch | overlap | cycleLen | offset | bufStart | bufEnd
  | pePitch | peCoarseLag | peLag | peCorrLo | peCorrHi | peEnergyLo | peEnergyHi
deriving DecidableEq, Repr

/-- The byte offset of a register. -/
def Reg.byteOffset : Reg → Nat
  | .id => 0x000 | .ctrl => 0x004 | .cmd => 0x008 | .status => 0x00C
  | .eraseCnt => 0x010 | .pitch => 0x014 | .overlap => 0x018 | .cycleLen => 0x01C
  | .offset => 0x020 | .bufStart => 0x024 | .bufEnd => 0x028
  | .pePitch => 0x030 | .peCoarseLag => 0x034 | .peLag => 0x038
  | .peCorrLo => 0x040 | .peCorrHi => 0x044 | .peEnergyLo => 0x048 | .peEnergyHi => 0x04C

/-- Every register, in the order of R20. -/
def Reg.all : List Reg :=
  [.id, .ctrl, .cmd, .status, .eraseCnt, .pitch, .overlap, .cycleLen, .offset, .bufStart, .bufEnd,
   .pePitch, .peCoarseLag, .peLag, .peCorrLo, .peCorrHi, .peEnergyLo, .peEnergyHi]

/-! ### Sample memories on the bus (R49) -/

/-- The five sample memories. -/
inductive Region where
  | fin | fout | hist | pbuf | lastq
deriving DecidableEq, Repr

/-- The byte address of a region's element 0. -/
def Region.base : Region → Nat
  | .fin => Config.FIN_BASE | .fout => Config.FOUT_BASE | .hist => Config.HIST_BASE
  | .pbuf => Config.PBUF_BASE | .lastq => Config.LASTQ_BASE

/-- A region's number of elements. -/
def Region.len : Region → Nat
  | .fin => Config.FRAME_SIZE | .fout => Config.FRAME_SIZE | .hist => Config.HISTORY_LEN
  | .pbuf => Config.HISTORY_LEN | .lastq => Config.OVERLAP_MAX

/-- Every region, by rising base address. -/
def Region.all : List Region := [.fin, .fout, .hist, .pbuf, .lastq]

/-- The memory a region names. -/
def Block.mem (b : Block) : Region → Memory
  | .fin => b.fin | .fout => b.fout | .hist => b.hist | .pbuf => b.pbuf | .lastq => b.lastq

/-- The block with one region's memory replaced. -/
def Block.withMem (b : Block) (g : Region) (m : Memory) : Block :=
  match g with
  | .fin => { b with fin := m }
  | .fout => { b with fout := m }
  | .hist => { b with hist := m }
  | .pbuf => { b with pbuf := m }
  | .lastq => { b with lastq := m }

/-! ### Address decoding (R50) -/

/-- What a bus address decodes to. -/
inductive Target where
  | unmapped
  | reg (r : Reg)
  | elem (g : Region) (k : Nat)
deriving DecidableEq, Repr

/-- The address lies in the region: from its base to its last word's address. -/
def Region.holds (g : Region) (a : Nat) : Bool := g.base ≤ a && a ≤ g.base + 4 * (g.len - 1)

/-- `decode(a)` of R50: a misaligned address is Unmapped, and so is every address no register and no element has. -/
def decodeAddr (a : BusAddr) : Target :=
  if a.toNat % 4 ≠ 0 then .unmapped
  else match Reg.all.find? (fun r => r.byteOffset == a.toNat) with
    | some r => .reg r
    | none =>
      match Region.all.find? (fun g => g.holds a.toNat) with
      | some g => .elem g ((a.toNat - g.base) / 4)
      | none => .unmapped

/-! ### The buffers as sequences of integers (R9, R10) -/

/-- `PBUF[k]` as an integer. -/
def Block.pbufAt (b : Block) (k : Nat) : Int := b.pbuf.at k

/-- `LASTQ[k]` as an integer. -/
def Block.lastqAt (b : Block) (k : Nat) : Int := b.lastq.at k

/-- `FIN[k]` as an integer. -/
def Block.finAt (b : Block) (k : Nat) : Int := b.fin.at k

end Sys2Proof.Machine
end

