-- ==== Sys2Proof/Machine/Flags.lean ====
section
/-! DEFINITION. The status flags and their word (R24), the register views (R21, R25–R36) and the consistency
predicate that validation checks (R45). The block has no arithmetic flags. -/

namespace Sys2Proof.Machine

/-- The 4-bit code of an error (R133). -/
def ErrCode.code : ErrCode → BitVec 4
  | .noError => 0 | .illegalCmd => 1 | .busy => 2 | .state => 3 | .addr => 4 | .wprot => 5 | .range => 6

/-- `STATUS.BUSY`: 1 exactly when a command is pending (R24). -/
def Block.busy (b : Block) : Bool := b.pend.isSome

/-- `{24'b0, ERR_CODE, 2'b0, ERR, BUSY}`: the word a read of `STATUS` returns (R24, R52). -/
def statusWord (b : Block) : Word :=
  (0 : BitVec 24) ++ b.errCode.code ++ (0 : BitVec 2) ++ BitVec.ofBool b.err ++ BitVec.ofBool b.busy

/-- The value a read of a register returns while the block is idle (R21 to R36). -/
def regValue (b : Block) : Reg → Word
  | .id => Config.ID_VALUE
  | .ctrl => 0
  | .cmd => 0
  | .status => statusWord b
  | .eraseCnt => b.eraseCnt
  | .pitch => b.pitch
  | .overlap => b.overlap
  | .cycleLen => b.cycleLen
  | .offset => b.offset
  | .bufStart => BitVec.ofNat 32 Config.HISTORY_LEN - b.cycleLen
  | .bufEnd => BitVec.ofNat 32 Config.HISTORY_LEN
  | .pePitch => b.pePitch
  | .peCoarseLag => b.peCoarseLag
  | .peLag => b.peLag
  | .peCorrLo => b.peCorr.extractLsb' 0 32
  | .peCorrHi => b.peCorr.extractLsb' 32 32
  | .peEnergyLo => b.peEnergy.extractLsb' 0 32
  | .peEnergyHi => b.peEnergy.extractLsb' 32 32

/-- The registers whose read is well defined at any time, with their value (R52): `ID`, `CTRL`, `CMD`, `STATUS`. -/
def Reg.alwaysReadable : Reg → Bool
  | .id => true | .ctrl => true | .cmd => true | .status => true
  | .eraseCnt => false | .pitch => false | .overlap => false | .cycleLen => false | .offset => false
  | .bufStart => false | .bufEnd => false | .pePitch => false | .peCoarseLag => false | .peLag => false
  | .peCorrLo => false | .peCorrHi => false | .peEnergyLo => false | .peEnergyHi => false

/-- `cons(s)` of R45. -/
abbrev Block.Cons (b : Block) : Prop :=
  Config.PITCH_MIN ≤ b.pitch.toNat ∧ b.pitch.toNat ≤ Config.PITCH_MAX
    ∧ b.overlap.toNat = b.pitch.toNat >>> 2
    ∧ b.cycleLen.toNat = b.pitch.toNat * min b.eraseCnt.toNat 3
    ∧ b.offset.toNat < b.cycleLen.toNat

end Sys2Proof.Machine
end

