-- ==== Sys2Proof/Machine/Command.lean ====
section
/-! DEFINITION. The lifecycle of a command (40_commands.md): validation, acceptance, what completion adds around
`Exec`, and `nop`. -/

namespace Sys2Proof.Machine

/-- `validate(w)` (R75): the first failing check, in the order ILLEGAL_CMD, WPROT, STATE; none is `OK`. -/
def validate (b : Block) (w : Word) : Option ErrCode :=
  match decode w with
  | .error _ => some .illegalCmd
  | .ok .snap => if b.eraseCnt ≠ 0 then some .wprot else none
  | .ok .frameGood => if b.eraseCnt ≠ 0 ∧ ¬ b.Cons then some .state else none
  | .ok .frameLost => if b.eraseCnt ≠ 0 ∧ ¬ b.Cons then some .state else none
  | .ok .nop => none
  | .ok .peRun => none

/-- `accept(w)` (R74): a word that fails validation raises its error and nothing else changes. -/
def accept (b : Block) (w : Word) : Block :=
  match validate b w with
  | some c => raiseError b c
  | none => { b with pend := some w }

/-- The command the engine's step takes up: the pending word, decoded (R76). -/
def fetchCommand (b : Block) : Option (Except Reject Instr) := b.pend.map decode

/-- The turn that was taken leaves the list. -/
def State.popTurn (s : State) : State := { s with turns := s.turns.tail }

/-- What the engine's step does after `Exec`: `PEND <- none` (R76), and its turn is over. -/
def State.retire (s : State) : State :=
  { s with blk := { s.blk with pend := none }, turns := s.turns.tail }

/-- `nop` (R80): no effect. -/
def execNop (s : State) : Host.Outcome State Fault Refusal := .next s

end Sys2Proof.Machine
end

