-- ==== Sys2Proof/Machine/Bus.lean ====
section
/-! DEFINITION. The host bus (20_memory.md): reads (R52), writes (R53), and the host's turns. -/

namespace Sys2Proof.Machine

/-- What a read of a target returns, or none where the value is unspecified: anything but `ID`, `CTRL`, `CMD` and
`STATUS` while a command is pending (R52). -/
def readValue (b : Block) : Target → Option Word
  | .unmapped => some 0
  | .reg r => if b.busy && !r.alwaysReadable then none else some (regValue b r)
  | .elem g k => if b.busy then none else some (wordOfSample ((b.mem g).get k))

/-- `MemRead(a, 4)` (R52): the value goes to the host; only an unmapped address changes the block, by `ADDR`. An
unspecified value is a free value, fresh for each read of this block. That the stream of these values is one for every
block, told apart by the block's own count of draws only, is the model's choice (log entry 3). -/
def memRead (s : State) (a : BusAddr) : State :=
  let t := decodeAddr a
  let blk := if t = .unmapped then raiseError s.blk .addr else s.blk
  match readValue s.blk t with
  | some v => { s with blk := blk, rdata := some v }
  | none => { s with blk := blk, rdata := some (Config.anyWord s.draws), draws := s.draws + 1 }

/-- Steps 8 and 9 of R53: a word that is no sign-extended sample is refused, another is stored. -/
def storeSample (b : Block) (g : Region) (k : Nat) (w : Word) : Block :=
  if legalSampleWord w then b.withMem g ((b.mem g).set k (sampleOfWord w)) else raiseError b .range

/-- The regions a burst freezes (R53 step 7). -/
def Region.frozenInBurst : Region → Bool
  | .pbuf => true | .lastq => true | .fin => false | .fout => false | .hist => false

/-- Steps 5 to 9 of R53: a write to a mapped target other than `CTRL` and `STATUS` while the block is idle. -/
def idleWrite (b : Block) (t : Target) (w : Word) : Block :=
  match t with
  | .unmapped => b
  | .reg .cmd => accept b w
  | .reg _ => b
  | .elem .fout _ => b
  | .elem g k => if g.frozenInBurst && b.eraseCnt != 0 then raiseError b .wprot else storeSample b g k w

/-- `MemWrite(a, 4, w)` (R53): the first case that matches. -/
def memWrite (b : Block) (a : BusAddr) (w : Word) : Block :=
  match decodeAddr a with
  | .unmapped => raiseError b .addr
  | .reg .ctrl => if w.getLsbD 0 then softReset b else b
  | .reg .status => if w.getLsbD 1 then clearError b else b
  | t => if b.busy then raiseError b .busy else idleWrite b t w

/-- The reset input goes up: every field takes its reset value (R147). -/
def assertReset (s : State) : State := { s.withBlk Block.reset with inReset := true }

/-- A turn that is not the engine's, with the reset input released: a host access (R52, R53) or the reset input (R147).
The engine's turn changes nothing here; the step makes it. -/
def hostTurn (s : State) : Turn → State
  | .engine => s
  | .read a => memRead s a
  | .write a w => s.withBlk (memWrite s.blk a w)
  | .reset => assertReset s
  | .release => s

/-- A turn while the reset input is asserted (R147): every field stays at its reset value and no access is answered,
whatever its address, so a read returns no word and a write is lost. Only `release` ends it. That an unanswered access is
lost and not held back is the model's choice (log entry 11). -/
def heldTurn (s : State) : Turn → State
  | .engine => s.withBlk Block.reset
  | .read _ => { s.withBlk Block.reset with rdata := none }
  | .write _ _ => s.withBlk Block.reset
  | .reset => s.withBlk Block.reset
  | .release => { s.withBlk Block.reset with inReset := false }

end Sys2Proof.Machine
end

