-- ==== Sys2Proof/Machine/Attenuation.lean ====
section
/-! DEFINITION. attenuation_envelope_generator (44_attenuation.md): the within-frame gain ramp. -/

namespace Sys2Proof.Machine

/-- The gain's numerator over `ATTEN_SCALE`: `400 − 80·(e − 1) − i` (R107). -/
def gainNum (e i : Nat) : Int :=
  (Config.ATTEN_SCALE : Int) - (Config.ATTEN_NUM * Config.FRAME_SIZE : Nat) * ((e : Int) - 1) - Config.ATTEN_NUM * i

/-- `atten(x, e)`, element `i` (R108). -/
def atten (x : Nat → Int) (e i : Nat) : Int :=
  clamp16 (tdiv (x i * gainNum e i) Config.ATTEN_SCALE)

end Sys2Proof.Machine
end

