-- ==== Sys2Proof/Machine/CycleCursor.lean ====
section
/-! DEFINITION. The Cycle Cursor (43_cycle_cursor.md): EXTRACT and PEEK over the active cycle window
`PBUF[390 − CYCLE_LEN .. 390)`. -/

namespace Sys2Proof.Machine

/-- EXTRACT's contract as far as its listing needs it: the cursor lies in the cycle window and the window in the
Pitch Buffer. `cons` gives it (R45, R102), and burst start establishes it (R103). -/
abbrev Block.CursorOk (b : Block) : Prop :=
  b.offset.toNat < b.cycleLen.toNat ∧ b.cycleLen.toNat ≤ Config.HISTORY_LEN

/-- `out[k] = PBUF[bs + ((o0 + k) mod L)]` with `bs = 390 − L` (R103). Outside the contract the sample is a free
value (log entry 9). -/
def extractAt (b : Block) (k : Nat) : Int :=
  if b.CursorOk then
    b.pbufAt (Config.HISTORY_LEN - b.cycleLen.toNat + (b.offset.toNat + k) % b.cycleLen.toNat)
  else (Config.unstatedExtract b.pbuf b.cycleLen b.offset k).toInt

/-- `OFFSET' = (o0 + size) mod L` (R103). Outside the contract the offset is a free value (log entry 9). -/
def advanceOffset (b : Block) (size : Nat) : Word :=
  if b.CursorOk then BitVec.ofNat 32 ((b.offset.toNat + size) % b.cycleLen.toNat)
  else Config.unstatedOffset b.cycleLen b.offset size

/-- `extract(size)` (R103): the samples, and the block with the cursor advanced. -/
def extract (b : Block) (size : Nat) : (Nat → Int) × Block :=
  (extractAt b, { b with offset := advanceOffset b size })

/-- `peek(size)` (R104): `extract(size)` with `OFFSET` saved before and restored after. -/
def peek (b : Block) (size : Nat) : (Nat → Int) × Block :=
  let r := extract b size
  (r.1, { r.2 with offset := b.offset })

/-- The chunked copy of R103's listing on `L = CYCLE_LEN` and a cursor position, with `fuel` loop passes at most:
the Pitch Buffer indices read, in order, and the final position. The machine uses the closed form R103 gives beside it
(`extractAt`, `advanceOffset`). -/
def extractChunks (L : Nat) : Nat → Nat → Nat → List Nat × Nat
  | 0, off, _ => ([], off)
  | fuel + 1, off, size =>
    if size = 0 then ([], off)
    else
      let cnt := min (L - off) size
      let off' := if off + cnt = L then 0 else off + cnt
      let rest := extractChunks L fuel off' (size - cnt)
      (List.range' (Config.HISTORY_LEN - L + off) cnt ++ rest.1, rest.2)

end Sys2Proof.Machine
end

