-- ==== Sys2Proof/Machine/HistoryBuffer.lean ====
section
/-! DEFINITION. circular_history_buffer (46_history_buffer.md): PUSH and the command `snap`. The state is the logical
array, oldest sample first (R125). -/

namespace Sys2Proof.Machine

/-- `HIST[80 .. 390) ++ f[0 .. 80)` (R123). -/
def shiftIn (hist : Memory) (f : Nat → Sample) : Memory :=
  let kept := Config.HISTORY_LEN - Config.FRAME_SIZE
  Memory.build Config.HISTORY_LEN fun k =>
    if k < kept then hist.get (k + Config.FRAME_SIZE) else f (k - kept)

/-- The output tap `HIST[280 .. 360)`, the 80 samples that end `OVERLAP_MAX` before the tail (R124). -/
def outputTap (hist : Memory) : Memory :=
  let first := Config.HISTORY_LEN - (Config.FRAME_SIZE + Config.OVERLAP_MAX)
  Memory.build Config.FRAME_SIZE fun i => hist.get (first + i)

/-- `FOUT := push(f)` (R123, R124): the frame goes into the History Buffer, the tap read after the shift to `FOUT`. -/
def push (b : Block) (f : Nat → Sample) : Block :=
  let h := shiftIn b.hist f
  { b with hist := h, fout := outputTap h }

/-- `snap` (R126): `PBUF[0 .. 390) := HIST[0 .. 390)`, nothing else. -/
def execSnap (s : State) : Host.Outcome State Fault Refusal :=
  .next (s.withBlk { s.blk with pbuf := s.blk.hist })

end Sys2Proof.Machine
end

