-- ==== Sys2Proof/Machine/OverlapAdd.lean ====
section
/-! DEFINITION. overlap_add_crossfader (41_overlap_add.md): BLEND and BLEND_END. A sequence is the function from its
index to its value; element `i` of a result reads only element `i` of each operand (R81). -/

namespace Sys2Proof.Machine

/-- `blend(l, r, n)`, element `i`, for `i < n` (R81). -/
def blend (l r : Nat → Int) (n i : Nat) : Int :=
  clamp16 (tdiv (((n : Int) - i) * l i + i * r i) n)

/-- The recovery gain's numerator over `ATTEN_DEN`: `g5 = max(0, 6 − e)` (R82). -/
def recoveryGain (e : Nat) : Int :=
  max 0 ((Config.ATTEN_DEN : Int) - ((e : Int) - 1) * Config.ATTEN_NUM)

/-- `blendEnd(t, s, n, e)`, element `i`, for `i < n` and `e ≥ 1` (R82). -/
def blendEnd (t s : Nat → Int) (n e i : Nat) : Int :=
  clamp16 (tdiv (recoveryGain e * ((n : Int) - i) * s i + Config.ATTEN_DEN * i * t i) (Config.ATTEN_DEN * n))

end Sys2Proof.Machine
end

