-- ==== Sys2Proof/Machine/PitchEstimator.lean ====
section
/-! DEFINITION. pitch_estimator (42_pitch_estimator.md): the two-stage normalised cross-correlation search and the
command `pe.run`. The input `x` is the Pitch Buffer as a sequence of integers. -/

namespace Sys2Proof.Machine

/-- Where candidate 0's window starts: `110 = HISTORY_LEN − CORR_BUF_LEN` (R85). -/
@[simp] abbrev candStart : Nat := Config.HISTORY_LEN - Config.CORR_BUF_LEN

/-- Where the target window starts: `230 = HISTORY_LEN − CORR_LEN` (R85). -/
@[simp] abbrev targetStart : Nat := Config.HISTORY_LEN - Config.CORR_LEN

/-- How many decimated positions the coarse sums visit: 80 (R87). -/
@[simp] abbrev coarseLen : Nat := Config.CORR_LEN / Config.NDEC

/-- `E_c(j)` (R87). -/
def coarseEnergy (x : Nat → Int) (j : Nat) : Int :=
  sumTo coarseLen fun k => x (candStart + j + Config.NDEC * k) ^ 2

/-- `C_c(j)` (R87). -/
def coarseCorr (x : Nat → Int) (j : Nat) : Int :=
  sumTo coarseLen fun k => x (candStart + j + Config.NDEC * k) * x (targetStart + Config.NDEC * k)

/-- `E_f(j)` (R94). -/
def fineEnergy (x : Nat → Int) (j : Nat) : Int :=
  sumTo Config.CORR_LEN fun i => x (candStart + j + i) ^ 2

/-- `C_f(j)` (R94). -/
def fineCorr (x : Nat → Int) (j : Nat) : Int :=
  sumTo Config.CORR_LEN fun i => x (candStart + j + i) * x (targetStart + i)

/-- A candidate's correlation and its floored energy (R89). -/
structure Score where
  c : Int
  s : Int
deriving DecidableEq, Repr

/-- The floor is applied to the candidate window's energy: `S = max(E, CORR_MIN_POWER)` (R89). -/
def scoreOf (c e : Int) : Score := { c := c, s := max e Config.CORR_MIN_POWER }

/-- The coarse stage's score of a candidate (R92). -/
def coarseScore (x : Nat → Int) (j : Nat) : Score := scoreOf (coarseCorr x j) (coarseEnergy x j)

/-- The fine stage's score of a candidate (R94). -/
def fineScore (x : Nat → Int) (j : Nat) : Score := scoreOf (fineCorr x j) (fineEnergy x j)

/-- `geq`: the exact comparison of two scores, without a square root (R90). -/
def geq (a b : Score) : Bool :=
  if 0 ≤ a.c then
    if 0 ≤ b.c then decide (b.c * b.c * a.s ≤ a.c * a.c * b.s) else true
  else
    if 0 ≤ b.c then false else decide (a.c * a.c * b.s ≤ b.c * b.c * a.s)

/-- The scan of R91 from a best candidate on: a later candidate replaces the best exactly when `geq` holds. -/
def selectFrom (score : Nat → Score) (best : Nat) : List Nat → Nat
  | [] => best
  | j :: js =>
    if geq (score j) (score best) then selectFrom score j js else selectFrom score best js

/-- `select(J)` (R91): the first candidate is the first best. No stage has an empty list. -/
def select (score : Nat → Score) : List Nat → Nat
  | [] => 0
  | j :: js => selectFrom score j js

/-- The coarse candidates, ascending: `0, NDEC, …, PITCH_DIFF` (R86, R7). -/
def coarseLags : List Nat := (List.range Config.COARSE_COUNT).map (Config.NDEC * ·)

/-- The fine candidates, ascending: `max(0, c − (NDEC − 1))` to `min(PITCH_DIFF, c + (NDEC − 1))` (R93). -/
def fineLags (c : Nat) : List Nat :=
  let lo := c - (Config.NDEC - 1)
  let hi := min Config.PITCH_DIFF (c + (Config.NDEC - 1))
  List.range' lo (hi + 1 - lo)

/-- PE's outputs (R84). -/
structure PEResult where
  pitch  : Nat
  coarse : Nat
  lag    : Nat
  corr   : Int
  energy : Int
deriving DecidableEq, Repr

/-- PE (R97): the coarse winner, the fine winner around it, and the winner's correlation and unfloored energy. -/
def pe (x : Nat → Int) : PEResult :=
  let c := select (coarseScore x) coarseLags
  let b := select (fineScore x) (fineLags c)
  { pitch := Config.PITCH_MAX - b, coarse := c, lag := b, corr := fineCorr x b, energy := fineEnergy x b }

/-- The PE result registers take PE's outputs (R101, R112 step 2). -/
def writePE (b : Block) (r : PEResult) : Block :=
  { b with
    pePitch := BitVec.ofNat 32 r.pitch, peCoarseLag := BitVec.ofNat 32 r.coarse, peLag := BitVec.ofNat 32 r.lag
    peCorr := BitVec.ofInt 64 r.corr, peEnergy := BitVec.ofInt 64 r.energy }

/-- `pe.run` (R101): PE on the current Pitch Buffer; nothing but the PE result registers changes. -/
def execPeRun (s : State) : Host.Outcome State Fault Refusal :=
  .next (s.withBlk (writePE s.blk (pe s.blk.pbufAt)))

end Sys2Proof.Machine
end

