-- ==== Sys2Proof/Machine/ErasureFsm.lean ====
section
/-! DEFINITION. pcm_frame_state_machine (45_erasure_fsm.md): the self-stitch, the four regimes of a lost frame, and
the commands `frame.lost` and `frame.good`. Each regime returns the frame it synthesises and the block it leaves. -/

namespace Sys2Proof.Machine

/-- The index bounds R113 and R114 prove under `cons`: LASTQ holds `ov` samples, and `ov` samples precede the cycle
window. -/
abbrev Block.StitchOk (b : Block) : Prop :=
  b.overlap.toNat ≤ Config.OVERLAP_MAX ∧ b.cycleLen.toNat + b.overlap.toNat ≤ Config.HISTORY_LEN

/-- Sample `i` of the stitched tail: `blend(LASTQ[0 .. ov), PBUF[bs − ov .. bs), ov)` (R113). Where the index bounds
fail the sample is a free value (log entry 9). -/
def stitchedAt (b : Block) (i : Nat) : Sample :=
  if b.StitchOk then
    toSample (blend b.lastqAt
      (fun k => b.pbufAt (Config.HISTORY_LEN - b.cycleLen.toNat - b.overlap.toNat + k)) b.overlap.toNat i)
  else Config.unstatedStitch b.pbuf b.lastq b.overlap b.cycleLen i

/-- The Pitch Buffer after the self-stitch: its last `ov` samples are the blend (R113). -/
def stitchedPbuf (b : Block) : Memory :=
  let tail := Config.HISTORY_LEN - b.overlap.toNat
  Memory.build Config.HISTORY_LEN fun k => if k < tail then b.pbuf.get k else stitchedAt b (k - tail)

/-- `stitch()` (R113). -/
def stitch (b : Block) : Block := { b with pbuf := stitchedPbuf b }

/-- The Last-Quarter Wave of step 4 (R112): `LASTQ[0 .. ov)` is the Pitch Buffer's tail, the rest is 0. -/
def capturedLastq (b : Block) : Memory :=
  Memory.build Config.OVERLAP_MAX fun k =>
    if k < b.overlap.toNat then b.pbuf.get (Config.HISTORY_LEN - b.overlap.toNat + k) else 0

/-- Step 4 of burst start (R112). -/
def captureTail (b : Block) : Block := { b with lastq := capturedLastq b }

/-- Steps 2 to 5 of burst start on the Pitch Buffer just taken (R112): the estimate goes to the PE and burst
registers, the tail to `LASTQ`, and the cursor to the start of a cycle of one pitch. -/
def arm (b : Block) (r : PEResult) : Block :=
  let measured := { writePE b r with
    pitch := BitVec.ofNat 32 r.pitch, overlap := BitVec.ofNat 32 (r.pitch >>> 2) }
  { captureTail measured with offset := 0, cycleLen := BitVec.ofNat 32 r.pitch }

/-- `burst_start()` (R112), the regime of `e = 0`. -/
def burstStart (b : Block) : (Nat → Int) × Block :=
  let snapped := { b with pbuf := b.hist }
  extract (stitch (arm snapped (pe snapped.pbufAt))) Config.FRAME_SIZE

/-- `short_extension(e)` (R114), the regime of `e ∈ {1, 2}`. -/
def shortExtension (b : Block) (e : Nat) : (Nat → Int) × Block :=
  let ov := b.overlap.toNat
  let tmp := peek b ov
  let extended := { tmp.2 with cycleLen := tmp.2.cycleLen + tmp.2.pitch }
  let out := extract (stitch extended) Config.FRAME_SIZE
  let smoothed := fun i => if i < ov then blend tmp.1 out.1 ov i else out.1 i
  (atten smoothed e, out.2)

/-- `steady_repeat(e)` (R115), the regime of `e ∈ {3, 4, 5}`. -/
def steadyRepeat (b : Block) (e : Nat) : (Nat → Int) × Block :=
  let out := extract b Config.FRAME_SIZE
  (atten out.1 e, out.2)

/-- `mute()` (R116), the regime of `e > 5`: a silent frame, the cursor not moved. -/
def mute (b : Block) : (Nat → Int) × Block := (fun _ => 0, b)

/-- The regime that the count before the increment selects (R111). -/
def synthesize (b : Block) (e : Nat) : (Nat → Int) × Block :=
  if e = 0 then burstStart b
  else if e ≤ Config.SHORT_EXT_MAX then shortExtension b e
  else if e ≤ Config.MUTE_AFTER then steadyRepeat b e
  else mute b

/-- FRAME_LOST (R111): synthesise, count (R117), push. -/
def frameLost (b : Block) : Block :=
  let e := b.eraseCnt.toNat
  let out := synthesize b e
  push { out.2 with eraseCnt := sat32 (e + 1) } (fun i => toSample (out.1 i))

/-- `olen = min(80, ov + (e − 1)·32)`, computed exactly (R119). -/
def recoveryLen (ov e : Nat) : Nat :=
  min Config.FRAME_SIZE (ov + (e - 1) * Config.END_OVERLAP_INCR)

/-- FRAME_GOOD (R119): blend out of a burst when one was active, and push. -/
def frameGood (b : Block) : Block :=
  let e := b.eraseCnt.toNat
  if e = 0 then push b b.fin.get
  else
    let olen := recoveryLen b.overlap.toNat e
    let syn := extract b olen
    push { syn.2 with eraseCnt := 0 } fun i =>
      if i < olen then toSample (blendEnd b.finAt syn.1 olen e i) else b.fin.get i

/-- `frame.lost` (R111). -/
def execFrameLost (s : State) : Host.Outcome State Fault Refusal :=
  .next (s.withBlk (frameLost s.blk))

/-- `frame.good` (R119). -/
def execFrameGood (s : State) : Host.Outcome State Fault Refusal :=
  .next (s.withBlk (frameGood s.blk))

end Sys2Proof.Machine
end

