-- ==== Sys2Proof/Machine/Dispatch.lean ====
section
/-! DEFINITION. `Exec` (R76): one arm per command. -/

namespace Sys2Proof.Machine

def exec (i : Instr) (s : State) : Host.Outcome State Fault Refusal :=
  match i with
  | .nop => Sys2Proof.Machine.execNop s
  | .frameGood => Sys2Proof.Machine.execFrameGood s
  | .frameLost => Sys2Proof.Machine.execFrameLost s
  | .peRun => Sys2Proof.Machine.execPeRun s
  | .snap => Sys2Proof.Machine.execSnap s

end Sys2Proof.Machine
end

