-- ==== Sys2Proof/Machine/Step.lean ====
section
/-! DEFINITION. One step of the machine (R59): a host access, the engine's completion of the pending command (R76), or
the reset input. -/

namespace Sys2Proof.Machine

/-- The engine's step (R76): enabled exactly when a command is pending, it runs `Exec` and then clears `PEND`. With
nothing pending the block keeps its state (R146). -/
def engineTurn (s : State) : Host.Outcome State Fault Refusal :=
  match fetchCommand s.blk with
  | none => .next s.popTurn
  | some (.error why) => .fault (.illegalPending why)
  | some (.ok i) =>
    match exec i s with
    | .next s' => .next s'.retire
    | .fault r => .fault r
    | .refused r => .refused r

/-- The turn at the head of the list, or the engine's when no turn is listed. -/
def State.headTurn (s : State) : Turn := s.turns.head?.getD .engine

/-- One step: the turn at the head of the list, or the engine's when no turn is listed. While the reset input is
asserted neither the engine nor an access takes effect (R147). -/
def step (s : State) : Host.Outcome State Fault Refusal :=
  if s.inReset then .next (heldTurn s s.headTurn).popTurn
  else match s.turns with
  | [] => engineTurn s
  | .engine :: _ => engineTurn s
  | .read a :: _ => .next (hostTurn s (.read a)).popTurn
  | .write a w :: _ => .next (hostTurn s (.write a w)).popTurn
  | .reset :: _ => .next (hostTurn s .reset).popTurn
  | .release :: _ => .next (hostTurn s .release).popTurn

/-- The command word put where the engine's step takes its next command, `PEND`, and the next turn given to the
engine, the reset input released. It stands for the host's write to `CMD` having been accepted (log entry 1). -/
def State.withFetchWord (s : State) (nbits w : Nat) : State :=
  { s with blk := { s.blk with pend := some (tableWord nbits w) }, turns := .engine :: s.turns, inReset := false }

end Sys2Proof.Machine
end

