-- ==== Sys2Proof/Machine/HostProgram.lean ====
section
/-! DEFINITION. The host's pseudo-instructions (30_encoding.md R71, R72) as the bus transactions they expand to. The
block never sees their text; these are turns for the list `State.turns`. -/

namespace Sys2Proof.Machine

/-- The bus address of a register (R20). -/
def Reg.addr (r : Reg) : BusAddr := BitVec.ofNat 13 r.byteOffset

/-- The bus address of element `k` of a region: `B + 4·k` (R49). -/
def Region.addr (g : Region) (k : Nat) : BusAddr := BitVec.ofNat 13 (g.base + 4 * k)

/-- A command written to `CMD` (R72). -/
def wrCmd (i : Instr) : List Turn := [.write Reg.cmd.addr (encode i)]

/-- `poll` (R72): `n` reads of `STATUS` before the engine moves, its step, and the read that shows `BUSY = 0`. How
often the host reads depends on the latency, which the spec leaves open (R157). That the engine moves here, and in no
earlier place of a host program, is the model's choice (log entry 14). -/
def poll (n : Nat) : List Turn :=
  List.replicate n (.read Reg.status.addr) ++ [.engine, .read Reg.status.addr]

/-- `exec c` (R72): the command, then `poll`. -/
def execCmd (i : Instr) (n : Nat) : List Turn := wrCmd i ++ poll n

/-- `frame lost=b` (R72). -/
def wrFrame (lost : Bool) : List Turn := wrCmd (if lost then .frameLost else .frameGood)

/-- `srst` (R72). -/
def srst : List Turn := [.write Reg.ctrl.addr 1]

/-- `clrerr` (R72). -/
def clrerr : List Turn := [.write Reg.status.addr 2]

/-- Values loaded from element `k` on, ascending, each as the word `u32(v)` (R72). R72 gives the full lists only, 80
values for `FIN` and 390 for `HIST` and `PBUF`: that a list of another length expands to as many writes, past the
region's end too, is the model's choice (log entry 16). -/
def load (g : Region) : Nat → List Int → List Turn
  | _, [] => []
  | k, v :: vs => .write (g.addr k) (BitVec.ofInt 32 v) :: load g (k + 1) vs

/-- `ldfin`, `ldhist`, `ldpbuf` (R72). -/
def ldfin (vs : List Int) : List Turn := load .fin 0 vs
/-- `ldhist` (R72). -/
def ldhist (vs : List Int) : List Turn := load .hist 0 vs
/-- `ldpbuf` (R72). -/
def ldpbuf (vs : List Int) : List Turn := load .pbuf 0 vs

/-- `rdfout` (R72): 80 reads of `FOUT`, ascending. -/
def rdfout : List Turn := (List.range Config.FRAME_SIZE).map fun k => .read (Region.fout.addr k)

/-! ### The statements of the line syntax (R71) -/

/-- `addr` of R71: a register's name, a region with the byte offset of an element, or a number. -/
inductive HostAddr where
  | reg (r : Reg)
  | region (g : Region) (k4 : Nat)
  | number (n : Nat)
deriving DecidableEq, Repr

/-- The bus address: the block decodes bits [12:0] (R48). R71 has `k4` stand for an element's offset `4·k`: that another
offset is added to the region's base as it is, is the model's choice (log entry 15). -/
def HostAddr.bus : HostAddr → BusAddr
  | .reg r => r.addr
  | .region g k4 => BitVec.ofNat 13 (g.base + k4)
  | .number n => BitVec.ofNat 13 n

/-- A statement of a host line (R71) with the pseudo-instructions (R72); the text around it (label, comment, the name a
read is bound to) makes no access. A poll says how often it reads before the engine moves. -/
inductive Stmt where
  | wr (a : HostAddr) (v : Int)
  | rd (a : HostAddr)
  | cmd (i : Instr)
  | frame (lost : Bool)
  | poll (n : Nat)
  | exec (i : Instr) (n : Nat)
  | srst
  | clrerr
  | ldfin (vs : List Int)
  | ldhist (vs : List Int)
  | ldpbuf (vs : List Int)
  | rdfout
deriving DecidableEq, Repr

/-- The turns a statement expands to; a negative value `v` means `u32(v)` (R71). R71 puts no bound on a number: that a
value of 2^32 or more is reduced modulo 2^32 as well is the model's choice (log entry 15). -/
def Stmt.turns : Stmt → List Turn
  | .wr a v => [.write a.bus (BitVec.ofInt 32 v)]
  | .rd a => [.read a.bus]
  | .cmd i => wrCmd i
  | .frame lost => wrFrame lost
  | .poll n => Sys2Proof.Machine.poll n
  | .exec i n => execCmd i n
  | .srst => Sys2Proof.Machine.srst
  | .clrerr => Sys2Proof.Machine.clrerr
  | .ldfin vs => Sys2Proof.Machine.ldfin vs
  | .ldhist vs => Sys2Proof.Machine.ldhist vs
  | .ldpbuf vs => Sys2Proof.Machine.ldpbuf vs
  | .rdfout => Sys2Proof.Machine.rdfout

/-- The turns of a host program, line after line, with the engine's turns inside the polls only. R77 lets a command
complete at any moment after its acceptance, between any two of the host's accesses; this list is one such order, the
model's choice (log entry 14). The other orders are lists of turns too, which `step` takes as they come. -/
def programTurns (p : List Stmt) : List Turn := p.flatMap Stmt.turns

end Sys2Proof.Machine
end

