-- ==== Sys2Proof/Machine/Platform.lean ====
section
/-! DEFINITION. Several instances of the block on one platform (R144): the product of independent single-instance
models, told apart by their windows' base addresses only (R48). -/

namespace Sys2Proof.Machine

/-- One instance: the platform's base address of its window (R48), and its own machine with its own copy of every
field. The instances draw their unspecified read values from one opaque constant, each by its own counter, so two whose
counters agree draw the same word: the model's choice (log entry 3). -/
structure Engine where
  base : Nat
  st : State
deriving DecidableEq, Repr

/-- The platform's instances, one per audio stream (R144). -/
abbrev Platform := List Engine

/-- Two windows share no address. -/
abbrev Engine.Apart (x y : Engine) : Prop :=
  x.base + Config.WINDOW_BYTES ≤ y.base ∨ y.base + Config.WINDOW_BYTES ≤ x.base

/-- Each instance has its own window (R144). -/
abbrev Platform.Wf (p : Platform) : Prop := p.Pairwise Engine.Apart

/-- The platform whose instances have their windows at these bases, each at its own reset (R144, R147). -/
def Platform.reset (bases : List Nat) : Platform := bases.map fun a => { base := a, st := State.reset }

/-- The instance's window holds the platform address. -/
def Engine.answers (x : Engine) (a : Nat) : Bool := x.base ≤ a && a < x.base + Config.WINDOW_BYTES

/-- The instance gets a turn of the host, at the offset into its window of the platform address. -/
def Engine.give (x : Engine) (a : Nat) (mk : BusAddr → Turn) : Engine :=
  { x with st := { x.st with turns := x.st.turns ++ [mk (BitVec.ofNat 13 (a - x.base))] } }

/-- The host issues an access at a platform address: one instance, the first whose window holds it, gets the turn, and
in a platform where each has its own window there is no other (R144). -/
def Platform.issue : Platform → Nat → (BusAddr → Turn) → Platform
  | [], _, _ => []
  | x :: p, a, mk => if x.answers a then x.give a mk :: p else x :: Platform.issue p a mk

/-- Instance `k` makes its step; every other keeps its state. -/
def Platform.stepAt (p : Platform) (k : Nat) : Host.Outcome Platform Fault Refusal :=
  match p[k]? with
  | none => .next p
  | some x =>
    match step x.st with
    | .next t => .next (p.set k { x with st := t })
    | .fault r => .fault r
    | .refused r => .refused r

end Sys2Proof.Machine
end

