-- ==== Sys2Proof/Safety.lean ====
section
/-! DEFINITION. What the statements speak of: the invariants of the block, the host's rules, the real-time bound, runs
of commands. -/

namespace Sys2Proof.Machine

/-- Every sample memory is in canonical form inside its size (log entry 5). -/
abbrev Block.MemWf (b : Block) : Prop :=
  b.hist.wf Config.HISTORY_LEN = true ∧ b.pbuf.wf Config.HISTORY_LEN = true ∧ b.lastq.wf Config.OVERLAP_MAX = true
    ∧ b.fin.wf Config.FRAME_SIZE = true ∧ b.fout.wf Config.FRAME_SIZE = true

/-- `ERASE_CNT = 0 or cons(s)`, the engine invariant of R46. -/
abbrev Block.EngineOk (b : Block) : Prop := b.eraseCnt = 0 ∨ b.Cons

/-- The legal values of the burst registers: `PITCH` (R26), `OVERLAP` (R27), `CYCLE_LEN` (R28), `OFFSET` (R29). -/
abbrev Block.BurstRegsLegal (b : Block) : Prop :=
  (b.pitch.toNat = 0 ∨ Config.PITCH_MIN ≤ b.pitch.toNat ∧ b.pitch.toNat ≤ Config.PITCH_MAX)
    ∧ b.overlap.toNat = b.pitch.toNat >>> 2
    ∧ (b.cycleLen.toNat = b.pitch.toNat ∨ b.cycleLen.toNat = 2 * b.pitch.toNat
        ∨ b.cycleLen.toNat = 3 * b.pitch.toNat)
    ∧ (0 < b.cycleLen.toNat → b.offset.toNat < b.cycleLen.toNat)

/-- The legal values of the PE result registers: `PE_PITCH` (R32), `PE_COARSE_LAG` (R33), `PE_LAG` (R34). -/
abbrev Block.PeRegsLegal (b : Block) : Prop :=
  b.peCoarseLag.toNat ≤ Config.PITCH_DIFF ∧ b.peCoarseLag.toNat % 2 = 0 ∧ b.peLag.toNat ≤ Config.PITCH_DIFF
    ∧ (b.pePitch.toNat = 0 ∨ b.pePitch.toNat = Config.PITCH_MAX - b.peLag.toNat)

/-- An error is recorded exactly when a code other than 0 is held (R24, R134). -/
abbrev Block.ErrOk (b : Block) : Prop := b.err = false ↔ b.errCode = .noError

/-- A pending command passes validation (R73, R74): it is one of the five words, and what it needs still holds. -/
abbrev Block.PendOk (b : Block) : Prop := ∀ w ∈ b.pend, validate b w = none

/-- A turn that resets the block: the reset input's assertion (R147) or a write to `CTRL` with bit 0 set (R148). -/
def Turn.resets : Turn → Bool
  | .engine => false
  | .read _ => false
  | .write a w => decide (decodeAddr a = .reg .ctrl) && w.getLsbD 0
  | .reset => true
  | .release => false

/-- A turn that clears the error record: a write to `STATUS` with bit 1 set (R24). -/
def Turn.clearsError : Turn → Bool
  | .engine => false
  | .read _ => false
  | .write a w => decide (decodeAddr a = .reg .status) && w.getLsbD 1
  | .reset => false
  | .release => false

/-- A bus access of the host. -/
def Turn.isAccess : Turn → Bool
  | .engine => false | .read _ => true | .write _ _ => true | .reset => false
  | .release => false

/-- The engine moves next: the reset input is released and the engine's turn is due. -/
def State.engineNext (s : State) : Bool := !s.inReset && decide (s.headTurn = .engine)

/-- The targets R151 exempts from waiting while a command is pending: `ID`, `CTRL`, `CMD` and `STATUS`, for reads and
for writes alike. R151 exempts `CMD` too, and yet has the host wait before it writes another command: that the exemption
of `CMD` is for its reads alone is the model's reading (log entry 17). -/
def Target.openWhileBusy (write : Bool) : Target → Bool
  | .unmapped => false
  | .elem _ _ => false
  | .reg r => r.alwaysReadable && !(write && decide (r = .cmd))

/-- The turn keeps to R151: while a command is pending the host makes no access but those it need not wait for. -/
def Turn.obeysBusy (b : Block) : Turn → Bool
  | .engine => true
  | .reset => true
  | .release => true
  | .read a => !b.busy || (decodeAddr a).openWhileBusy false
  | .write a _ => !b.busy || (decodeAddr a).openWhileBusy true

/-- The block keeps up with the stream: `LAT_MAX / f_clk ≤ 10 ms` (R157). Both are open parameters. -/
abbrev RealTimeBound : Prop := 100 * Config.latMax ≤ Config.fClk

/-- The frame `f` was pushed between two blocks (R123, R124). -/
abbrev FramePushed (b b' : Block) (f : Nat → Sample) : Prop :=
  (∀ k < 310, b'.hist.get k = b.hist.get (k + 80)) ∧ (∀ i < 80, b'.hist.get (310 + i) = f i)
    ∧ ∀ i < 80, b'.fout.get i = b'.hist.get (280 + i)

/-- Commands completed one after another, the first stop kept. -/
def runCommands : List Instr → State → Host.Outcome State Fault Refusal
  | [], s => .next s
  | i :: is, s =>
    match exec i s with
    | .next t => runCommands is t
    | .fault r => .fault r
    | .refused r => .refused r

end Sys2Proof.Machine
end

