-- ==== Sys2Proof/Certificates/Slice0/Obligations.lean ====
section
/-! DEFINITION. The statements for the provers: one definition `Obligations.<Name> : Prop` each. Each docstring names
the rules of spec/ it formalises. -/

open Sys2Proof Sys2Proof.Machine

/-! ### Encoding (30_encoding.md) -/

/-- R68: exactly five words are legal, each decodes to its command, and the fields of each command's word are those
of the table. -/
def Obligations.FiveWordsAreLegal : Prop :=
  decode 0x00000000 = .ok .nop ∧ decode 0x00000001 = .ok .frameGood ∧ decode 0x00000011 = .ok .frameLost
    ∧ decode 0x00000002 = .ok .peRun ∧ decode 0x00000003 = .ok .snap
    ∧ (∀ w : Word, (∃ i, decode w = .ok i)
        ↔ w = 0x00000000 ∨ w = 0x00000001 ∨ w = 0x00000011 ∨ w = 0x00000002 ∨ w = 0x00000003)
    ∧ ∀ i : Instr, formatOf (encode i) = i.format

/-- R66, R68: decoding and encoding agree in both directions, on every word. -/
def Obligations.DecodeEncodeAgree : Prop :=
  ∀ (w : Word) (i : Instr), decode w = .ok i ↔ w = encode i

/-- R69: a word is illegal exactly when `OP` is 4 or more, or `LOST` is set with `OP ≠ 1`, or some `RSVD` bit is set;
acceptance then raises ILLEGAL_CMD and does nothing else. -/
def Obligations.IllegalWordsAreRefused : Prop :=
  ∀ (w : Word) (b : Block),
    ((∃ r, decode w = .error r)
        ↔ 4 ≤ w.toNat % 16 ∨ (w.getLsbD 4 = true ∧ w.toNat % 16 ≠ 1) ∨ w.toNat / 32 ≠ 0)
      ∧ ((∃ r, decode w = .error r) → accept b w = raiseError b .illegalCmd)

/-! ### The step (R59, R76) -/

/-- R76: at the engine's turn, the reset input released, with a pending word that decodes to `i`, the step completes: it is `exec i`, after which
`PEND` is none and the turn is over. That the engine moves at an empty list of turns (log entry 1) and that a frame
command pending outside `cons` completes (log entry 9) is the model's choice. -/
def Obligations.StepRunsDecodedCommand : Prop :=
  ∀ (s : State) (w : Word) (i : Instr),
    s.inReset = false → (s.turns = [] ∨ ∃ ts, s.turns = .engine :: ts) →
    s.blk.pend = some w → decode w = .ok i →
      ∃ t, exec i s = .next t
        ∧ step s = .next { t with blk := { t.blk with pend := none }, turns := s.turns.tail }

/-- R76, R146: with nothing pending and the reset input released the engine's turn passes and the block keeps its state. That an empty list is the
engine's turn is the model's choice (log entry 1). -/
def Obligations.IdleEngineKeepsState : Prop :=
  ∀ s : State, s.inReset = false → (s.turns = [] ∨ ∃ ts, s.turns = .engine :: ts) → s.blk.pend = none →
    step s = .next { s with turns := s.turns.tail }

/-- R56, R59, R147: with the reset input released, a host access at the head of the list takes effect in one step, the
assertion of the reset input puts the block at its reset values and holds it there, and a release changes nothing. The
list of turns is the model's choice (log entry 1), and so are the turns of the reset input (log entry 11) and that the
list, the last word read and the count of free values outlast it (log entries 1, 2 and 3). -/
def Obligations.StepTakesHostTurn : Prop :=
  ∀ (s : State) (ts : List Turn), s.inReset = false →
    (∀ a, s.turns = .read a :: ts → step s = .next { memRead s a with turns := ts })
      ∧ (∀ a w, s.turns = .write a w :: ts → step s = .next { s with blk := memWrite s.blk a w, turns := ts })
      ∧ (s.turns = .reset :: ts → step s = .next { s with blk := Block.reset, inReset := true, turns := ts })
      ∧ (s.turns = .release :: ts → step s = .next { s with turns := ts })

/-- R76, R133: with the reset input released the completion of any accepted command takes place and records no error: `ERR` and `ERR_CODE` are as
before and `PEND` is none. That the engine moves at an empty list of turns (log entry 1) and that a frame command pending
outside `cons` completes (log entry 9) is the model's choice. -/
def Obligations.CompletionRaisesNoError : Prop :=
  ∀ (s : State) (w : Word) (i : Instr),
    s.inReset = false → (s.turns = [] ∨ ∃ ts, s.turns = .engine :: ts) →
    s.blk.pend = some w → decode w = .ok i →
      ∃ t, step s = .next t ∧ t.blk.pend = none ∧ t.blk.err = s.blk.err ∧ t.blk.errCode = s.blk.errCode
        ∧ t.blk.fin = s.blk.fin ∧ t.turns = s.turns.tail ∧ t.rdata = s.rdata ∧ t.draws = s.draws

/-! ### nop, snap, pe.run -/

/-- R80: `nop` completes and changes nothing. -/
def Obligations.NopChangesNothing : Prop := ∀ s : State, exec .nop s = .next s

/-- R126: `snap` completes: `PBUF` is `HIST`, and nothing else changes. -/
def Obligations.SnapCopiesHistory : Prop :=
  ∀ s : State, exec .snap s = .next { s with blk := { s.blk with pbuf := s.blk.hist } }

/-- R94, R96, R101: `pe.run` completes. The five registers take PE's outputs on the Pitch Buffer and nothing else
changes. Read back, they hold those values exactly (R98): the lag, the coarse lag at most one away and even, the pitch
`120` less the lag, and as correlation and energy the 160-term sums over the Pitch Buffer. -/
def Obligations.PeRunWritesExactResult : Prop :=
  ∀ s : State,
    let r := pe s.blk.pbuf.at
    ∃ t, exec .peRun s = .next t
      ∧ t = { s with blk := { s.blk with
          pePitch := BitVec.ofNat 32 r.pitch, peCoarseLag := BitVec.ofNat 32 r.coarse, peLag := BitVec.ofNat 32 r.lag
          peCorr := BitVec.ofInt 64 r.corr, peEnergy := BitVec.ofInt 64 r.energy } }
      ∧ t.blk.pePitch.toNat = r.pitch ∧ t.blk.peCoarseLag.toNat = r.coarse ∧ t.blk.peLag.toNat = r.lag
      ∧ t.blk.peLag.toNat ≤ 80 ∧ t.blk.pePitch.toNat = 120 - t.blk.peLag.toNat
      ∧ t.blk.peCoarseLag.toNat % 2 = 0 ∧ t.blk.peCoarseLag.toNat ≤ 80
      ∧ t.blk.peLag.toNat ≤ t.blk.peCoarseLag.toNat + 1 ∧ t.blk.peCoarseLag.toNat ≤ t.blk.peLag.toNat + 1
      ∧ t.blk.peCorr.toInt
          = sumTo 160 (fun i => s.blk.pbuf.at (110 + t.blk.peLag.toNat + i) * s.blk.pbuf.at (230 + i))
      ∧ (t.blk.peEnergy.toNat : Int) = sumTo 160 (fun i => s.blk.pbuf.at (110 + t.blk.peLag.toNat + i) ^ 2)

/-- R126, R112: `snap` then `pe.run` gives the pitch registers the next burst start gives from the same `HIST`. -/
def Obligations.SnapThenPeRunPredictsBurst : Prop :=
  ∀ s : State, s.blk.eraseCnt = 0 →
    ∃ t u, runCommands [.snap, .peRun] s = .next t ∧ runCommands [.frameLost] s = .next u
      ∧ t.blk.pePitch = u.blk.pePitch ∧ t.blk.peCoarseLag = u.blk.peCoarseLag ∧ t.blk.peLag = u.blk.peLag
      ∧ t.blk.peCorr = u.blk.peCorr ∧ t.blk.peEnergy = u.blk.peEnergy ∧ u.blk.pitch = t.blk.pePitch
      ∧ t.blk.pitch = s.blk.pitch ∧ t.blk.hist = s.blk.hist

/-! ### The pitch estimator (42_pitch_estimator.md) -/

/-- R90: `geq` is the comparison of the real scores `C/√S`, and has the four cases of its listing. -/
def Obligations.GeqComparesRealScores : Prop :=
  ∀ a b : Score, 250 ≤ a.s → 250 ≤ b.s →
    (geq a b = true ↔ (b.c : ℝ) / Real.sqrt (b.s : ℝ) ≤ (a.c : ℝ) / Real.sqrt (a.s : ℝ))
      ∧ (0 ≤ a.c → b.c < 0 → geq a b = true) ∧ (a.c < 0 → 0 ≤ b.c → geq a b = false)
      ∧ (0 ≤ a.c → 0 ≤ b.c → (geq a b = true ↔ b.c * b.c * a.s ≤ a.c * a.c * b.s))
      ∧ (a.c < 0 → b.c < 0 → (geq a b = true ↔ a.c * a.c * b.s ≤ b.c * b.c * a.s))

/-- R86, R87, R89, R91, R92: the coarse winner is the largest lag index among the best coarse candidates
`0, 2, …, 80`, scored by the 80-term sums over the decimated positions, the energy floored at 250. -/
def Obligations.CoarseWinnerIsLastBest : Prop :=
  ∀ x : Nat → Int,
    let score : Nat → Score := fun j =>
      { c := sumTo 80 (fun k => x (110 + j + 2 * k) * x (230 + 2 * k))
        s := max (sumTo 80 (fun k => x (110 + j + 2 * k) ^ 2)) 250 }
    (pe x).coarse % 2 = 0 ∧ (pe x).coarse ≤ 80
      ∧ ∀ j, j % 2 = 0 → j ≤ 80 →
          geq (score (pe x).coarse) (score j) = true
            ∧ ((pe x).coarse < j → geq (score j) (score (pe x).coarse) = false)

/-- R89, R91, R93, R94, R95: the fine winner is the largest lag index among the best fine candidates, from
`max(0, c − 1)` to `min(80, c + 1)`, scored by the 160-term sums, the energy floored at 250. -/
def Obligations.FineWinnerIsLastBest : Prop :=
  ∀ x : Nat → Int,
    let score : Nat → Score := fun j =>
      { c := sumTo 160 (fun i => x (110 + j + i) * x (230 + i))
        s := max (sumTo 160 (fun i => x (110 + j + i) ^ 2)) 250 }
    ((pe x).coarse - 1 ≤ (pe x).lag ∧ (pe x).lag ≤ min 80 ((pe x).coarse + 1))
      ∧ ∀ j, (pe x).coarse - 1 ≤ j → j ≤ min 80 ((pe x).coarse + 1) →
          geq (score (pe x).lag) (score j) = true
            ∧ ((pe x).lag < j → geq (score j) (score (pe x).lag) = false)

/-- R96: PE returns `120 − b`, `C_f(b)` and `E_f(b)`, with `b` in [0, 80] and the pitch in [40, 120], for every input. -/
def Obligations.PitchEstimateIsAlwaysInRange : Prop :=
  ∀ x : Nat → Int,
    (pe x).pitch = 120 - (pe x).lag ∧ (pe x).lag ≤ 80 ∧ 40 ≤ (pe x).pitch ∧ (pe x).pitch ≤ 120
      ∧ (pe x).corr = sumTo 160 (fun i => x (110 + (pe x).lag + i) * x (230 + i))
      ∧ (pe x).energy = sumTo 160 (fun i => x (110 + (pe x).lag + i) ^ 2)

/-- R88: the running energies are exactly the sums of R87 and R94, in both stages. -/
def Obligations.RunningEnergiesAreExact : Prop :=
  ∀ (x : Nat → Int) (j : Nat),
    coarseEnergy x j = sumTo 80 (fun k => x (110 + j + 2 * k) ^ 2)
      ∧ fineEnergy x j = sumTo 160 (fun i => x (110 + j + i) ^ 2)
      ∧ (2 ≤ j → j ≤ 80 →
        coarseEnergy x j = coarseEnergy x (j - 2) - x (110 + (j - 2)) ^ 2 + x (110 + j + 158) ^ 2)
      ∧ (1 ≤ j → j ≤ 80 →
        fineEnergy x j = fineEnergy x (j - 1) - x (110 + j - 1) ^ 2 + x (110 + j + 159) ^ 2)

/-- R101's corner cases, R91: on a constant Pitch Buffer every candidate ties and the result is pitch 40, lags 80. -/
def Obligations.ConstantBufferGivesShortestPitch : Prop :=
  ∀ v : Int, (pe (fun _ => v)).coarse = 80 ∧ (pe (fun _ => v)).lag = 80 ∧ (pe (fun _ => v)).pitch = 40
    ∧ (pe (fun _ => v)).corr = 160 * v ^ 2 ∧ (pe (fun _ => v)).energy = 160 * v ^ 2

/-! ### The crossfader, the ramp and the cursor (41, 43, 44) -/

/-- R81's corner cases: on samples, BLEND starts exactly at the left operand, its clamp changes nothing and each result
lies between the two inputs. -/
def Obligations.BlendStaysBetweenItsInputs : Prop :=
  ∀ (l r : Nat → Int) (n i : Nat),
    (∀ k, -32768 ≤ l k ∧ l k ≤ 32767) → (∀ k, -32768 ≤ r k ∧ r k ≤ 32767) → i < n →
      blend l r n i = tdiv (((n : Int) - i) * l i + i * r i) n
        ∧ min (l i) (r i) ≤ blend l r n i ∧ blend l r n i ≤ max (l i) (r i)
        ∧ blend l r n 0 = l 0

/-- R82's corner cases: after one loss BLEND_END is BLEND with the operands exchanged; from six losses on it is a
fade-in of the genuine samples from 0, whatever the synthetic ones are. -/
def Obligations.BlendEndMeetsBlendAndFadeIn : Prop :=
  ∀ (t s : Nat → Int) (n i : Nat), (∀ k, -32768 ≤ t k ∧ t k ≤ 32767) → i < n →
    blendEnd t s n 1 i = blend s t n i
      ∧ ∀ e, 6 ≤ e → blendEnd t s n e i = tdiv (i * t i) n ∧ blendEnd t s n e 0 = 0

/-- R107, R108: for counts 1 to 5 ATTEN never makes a sample louder, its clamp changes nothing, and at count 1 the
frame starts at gain 1. -/
def Obligations.AttenuationNeverAmplifies : Prop :=
  ∀ (x : Nat → Int) (e i : Nat), (∀ k, -32768 ≤ x k ∧ x k ≤ 32767) → 1 ≤ e → e ≤ 5 → i < 80 →
    atten x e i = tdiv (x i * (400 - 80 * ((e : Int) - 1) - i)) 400 ∧ |atten x e i| ≤ |x i| ∧ atten x 1 0 = x 0

/-- R103: the chunked copy reads the indices of the closed form and ends at its offset, for every cursor in its window
and every size, within `size` loop passes. -/
def Obligations.ChunkedExtractMatchesClosedForm : Prop :=
  ∀ L off size fuel : Nat, off < L → L ≤ 390 → size ≤ fuel →
    extractChunks L fuel off size
      = ((List.range size).map (fun k => 390 - L + (off + k) % L), (off + size) % L)

/-- R103, R104: with the cursor in its window, EXTRACT returns the window's samples cyclically from `OFFSET`, moves
`OFFSET` only, and leaves it in the window; PEEK returns the same samples and leaves the block as it was. -/
def Obligations.ExtractMovesOnlyTheCursor : Prop :=
  ∀ (b : Block) (n k : Nat), b.offset.toNat < b.cycleLen.toNat → b.cycleLen.toNat ≤ 390 →
    (extract b n).1 k = b.pbuf.at (390 - b.cycleLen.toNat + (b.offset.toNat + k) % b.cycleLen.toNat)
      ∧ (extract b n).2 = { b with offset := (extract b n).2.offset }
      ∧ (extract b n).2.offset.toNat = (b.offset.toNat + n) % b.cycleLen.toNat
      ∧ (extract b n).2.offset.toNat < b.cycleLen.toNat
      ∧ (peek b n).1 k = (extract b n).1 k ∧ (peek b n).2 = b

/-! ### Frames (45_erasure_fsm.md, 46_history_buffer.md) -/

/-- R112, R113: a lost frame with `ERASE_CNT = 0` completes as the burst start: the estimate of `HIST`, the captured
and the stitched tail, the first cycle as the pushed frame. -/
def Obligations.BurstStartRebuildsEngine : Prop :=
  ∀ s : State, s.blk.eraseCnt = 0 →
    let h := s.blk.hist
    let r := pe h.at
    let p := r.pitch
    let ov := p / 4
    ∃ t, exec .frameLost s = .next t
      ∧ t = { s with blk := { s.blk with
          hist := t.blk.hist, fout := t.blk.fout, pbuf := t.blk.pbuf, lastq := t.blk.lastq
          eraseCnt := 1, pitch := BitVec.ofNat 32 p, overlap := BitVec.ofNat 32 ov
          cycleLen := BitVec.ofNat 32 p, offset := BitVec.ofNat 32 (80 % p)
          pePitch := BitVec.ofNat 32 p, peCoarseLag := BitVec.ofNat 32 r.coarse, peLag := BitVec.ofNat 32 r.lag
          peCorr := BitVec.ofInt 64 r.corr, peEnergy := BitVec.ofInt 64 r.energy } }
      ∧ (∀ k < 30, t.blk.lastq.get k = if k < ov then h.get (390 - ov + k) else 0)
      ∧ (∀ k < 390, t.blk.pbuf.get k =
          if k < 390 - ov then h.get k
          else toSample (blend (fun i => h.at (390 - ov + i)) (fun i => h.at (390 - p - ov + i)) ov
            (k - (390 - ov))))
      ∧ FramePushed s.blk t.blk (fun i => t.blk.pbuf.get (390 - p + i % p))

/-- R114: a lost frame at counts 1 and 2 in a consistent engine completes as the short extension: the cycle grows by
one pitch, the tail is stitched anew, and the frame fades from the old window into the new one under the ramp. -/
def Obligations.ShortExtensionGrowsTheCycle : Prop :=
  ∀ (s : State) (e : Nat), s.blk.eraseCnt.toNat = e → (e = 1 ∨ e = 2) → s.blk.Cons →
    let b := s.blk
    let p := b.pitch.toNat
    let ov := b.overlap.toNat
    let o := b.offset.toNat
    let old := e * p
    let new := (e + 1) * p
    ∃ t, exec .frameLost s = .next t
      ∧ t = { s with blk := { b with
          hist := t.blk.hist, fout := t.blk.fout, pbuf := t.blk.pbuf
          eraseCnt := BitVec.ofNat 32 (e + 1), cycleLen := BitVec.ofNat 32 new
          offset := BitVec.ofNat 32 ((o + 80) % new) } }
      ∧ (∀ k < 390, t.blk.pbuf.get k =
          if k < 390 - ov then b.pbuf.get k
          else toSample (blend b.lastq.at (fun i => b.pbuf.at (390 - new - ov + i)) ov (k - (390 - ov))))
      ∧ FramePushed b t.blk (fun i => toSample (atten
          (fun i => if i < ov then
              blend (fun k => b.pbuf.at (390 - old + (o + k) % old))
                (fun k => t.blk.pbuf.at (390 - new + (o + k) % new)) ov i
            else t.blk.pbuf.at (390 - new + (o + i) % new)) e i))

/-- R115: a lost frame at counts 3, 4 and 5 in a consistent engine completes as the steady repeat: the next 80 samples
of the cycle under the ramp, and the cursor and the count moved. -/
def Obligations.SteadyRepeatWalksTheCycle : Prop :=
  ∀ (s : State) (e : Nat), s.blk.eraseCnt.toNat = e → 3 ≤ e → e ≤ 5 → s.blk.Cons →
    let b := s.blk
    let len := 3 * b.pitch.toNat
    let o := b.offset.toNat
    ∃ t, exec .frameLost s = .next t
      ∧ t = { s with blk := { b with
          hist := t.blk.hist, fout := t.blk.fout
          eraseCnt := BitVec.ofNat 32 (e + 1), offset := BitVec.ofNat 32 ((o + 80) % len) } }
      ∧ FramePushed b t.blk (fun i => toSample (atten (fun k => b.pbuf.at (390 - len + (o + k) % len)) e i))

/-- R116: a lost frame at any count above 5 completes as the mute, in every engine state: an all-zero frame is pushed,
`ERASE_CNT` counts, and `OFFSET`, `CYCLE_LEN`, `PBUF`, `LASTQ` and every other field stay.
That it completes outside `cons` too is the model's choice (log entry 9). -/
def Obligations.MutePushesSilence : Prop :=
  ∀ s : State, 5 < s.blk.eraseCnt.toNat →
    ∃ t, exec .frameLost s = .next t
      ∧ t = { s with blk := { s.blk with
          hist := t.blk.hist, fout := t.blk.fout, eraseCnt := t.blk.eraseCnt } }
      ∧ t.blk.eraseCnt.toNat = min (s.blk.eraseCnt.toNat + 1) (2 ^ 32 - 1)
      ∧ FramePushed s.blk t.blk (fun _ => 0)

/-- R119: a genuine frame with `ERASE_CNT = 0` completes: `FIN` is pushed unchanged and nothing else changes. -/
def Obligations.GoodFramePassesThrough : Prop :=
  ∀ s : State, s.blk.eraseCnt = 0 →
    ∃ t, exec .frameGood s = .next t
      ∧ t = { s with blk := { s.blk with hist := t.blk.hist, fout := t.blk.fout } }
      ∧ FramePushed s.blk t.blk s.blk.fin.get

/-- R119: a genuine frame that ends a burst, in a consistent engine, completes: its first `olen` samples are blended out
of the cycle, `OFFSET` moves by `olen`, the count is 0, and `FIN`, `PBUF`, `LASTQ` and the other registers stay. -/
def Obligations.RecoveryBlendsOutOfTheBurst : Prop :=
  ∀ (s : State) (e : Nat), s.blk.eraseCnt.toNat = e → e ≠ 0 → s.blk.Cons →
    let b := s.blk
    let len := b.cycleLen.toNat
    let o := b.offset.toNat
    let olen := min 80 (b.overlap.toNat + (e - 1) * 32)
    ∃ t, exec .frameGood s = .next t
      ∧ t = { s with blk := { b with
          hist := t.blk.hist, fout := t.blk.fout, eraseCnt := 0
          offset := BitVec.ofNat 32 ((o + olen) % len) } }
      ∧ FramePushed b t.blk (fun i =>
          if i < olen then
            toSample (clamp16 (tdiv
              (max 0 (6 - (e : Int)) * ((olen : Int) - i) * b.pbuf.at (390 - len + (o + i) % len)
                + 5 * i * b.fin.at i) (5 * olen)))
          else b.fin.get i)

/-- R76, R117, R122: both frame commands complete in every state; a lost frame leaves `sat32(e + 1)`, so at least 1, a
genuine frame leaves 0. That they complete outside `cons` too is the model's choice (log entry 9). -/
def Obligations.FramesCountLosses : Prop :=
  ∀ s : State,
    (∃ t, exec .frameLost s = .next t
        ∧ t.blk.eraseCnt.toNat = min (s.blk.eraseCnt.toNat + 1) (2 ^ 32 - 1) ∧ 1 ≤ t.blk.eraseCnt.toNat)
      ∧ ∃ t, exec .frameGood s = .next t ∧ t.blk.eraseCnt = 0

/-- The frame of both frame commands in every state, consistent or not: a frame is pushed (R123), the tap is read
(R124), and `FIN`, the error record, `PEND` and the model's own fields stay; `frame.good` leaves `PBUF`, `LASTQ` and
every register but `ERASE_CNT` and `OFFSET` (R119), and a lost frame at a count other than 0 leaves `PITCH`, `OVERLAP`,
`LASTQ` and the PE registers (R26, R114, R115, R116). That they complete outside `cons` too, with free values for the
samples pushed there, is the model's choice (log entry 9). -/
def Obligations.FrameCommandsKeepTheRest : Prop :=
  ∀ s : State,
    (∃ t f, exec .frameLost s = .next t ∧ FramePushed s.blk t.blk f
        ∧ t = { s with blk := { t.blk with
            fin := s.blk.fin, err := s.blk.err, errCode := s.blk.errCode, pend := s.blk.pend } }
        ∧ (s.blk.eraseCnt ≠ 0 →
            t.blk.pitch = s.blk.pitch ∧ t.blk.overlap = s.blk.overlap ∧ t.blk.lastq = s.blk.lastq
              ∧ t.blk.pePitch = s.blk.pePitch ∧ t.blk.peCoarseLag = s.blk.peCoarseLag
              ∧ t.blk.peLag = s.blk.peLag ∧ t.blk.peCorr = s.blk.peCorr ∧ t.blk.peEnergy = s.blk.peEnergy))
      ∧ ∃ t f, exec .frameGood s = .next t ∧ FramePushed s.blk t.blk f
        ∧ t = { s with blk := { s.blk with
            hist := t.blk.hist, fout := t.blk.fout, eraseCnt := t.blk.eraseCnt, offset := t.blk.offset } }

/-- R124: the output stream is the pushed stream delayed by 30 samples: sample `i` of a pushed frame is at index
`i + 30` of that command's output for `i < 50`, and at index `i − 50` of the next frame command's output after that.
That both commands complete outside `cons` too is the model's choice (log entry 9). -/
def Obligations.OutputTapDelaysThirtySamples : Prop :=
  ∀ (s : State) (i j : Instr), (i = .frameGood ∨ i = .frameLost) → (j = .frameGood ∨ j = .frameLost) →
    ∃ t u, exec i s = .next t ∧ exec j t = .next u
      ∧ (∀ k < 50, t.blk.fout.get (k + 30) = t.blk.hist.get (310 + k))
      ∧ ∀ k, 50 ≤ k → k < 80 → u.blk.fout.get (k - 50) = t.blk.hist.get (310 + k)

/-- R111: a lost frame ignores `FIN`: with any other frame input it completes to the same state but for that input.
That it completes outside `cons` too is the model's choice (log entry 9). -/
def Obligations.LostFrameIgnoresFrameInput : Prop :=
  ∀ (s : State) (m : Memory), ∃ t, exec .frameLost s = .next t
    ∧ exec .frameLost { s with blk := { s.blk with fin := m } } = .next { t with blk := { t.blk with fin := m } }

/-- R154: in a burst the History Buffer has no effect on the synthesis: with any other `HIST` a lost frame completes
with the same pushed frame, and every field but `HIST` and `FOUT` is the same. That it completes outside `cons` too is
the model's choice (log entry 9). -/
def Obligations.BurstIgnoresHistory : Prop :=
  ∀ (s : State) (m : Memory), s.blk.eraseCnt ≠ 0 →
    ∃ t u, exec .frameLost s = .next t ∧ exec .frameLost { s with blk := { s.blk with hist := m } } = .next u
      ∧ u = { t with blk := { t.blk with hist := u.blk.hist, fout := u.blk.fout } }
      ∧ ∀ i < 80, u.blk.hist.get (310 + i) = t.blk.hist.get (310 + i)

/-- R118 with R105 and R116: `n` lost frames from `ERASE_CNT = 0` run burst start, short extension twice, steady repeat
three times and then mute: the count is `n`, the cycle `min n 3` pitches long, and each frame up to the sixth moves the
offset by 80 in its window, later ones leave it. -/
def Obligations.BurstRunsTheRegimesInOrder : Prop :=
  ∀ (s : State) (n : Nat), s.blk.eraseCnt = 0 → n + 1 < 2 ^ 32 →
    let p := (pe s.blk.hist.at).pitch
    ∃ t u, runCommands (List.replicate n .frameLost) s = .next t
      ∧ runCommands (List.replicate (n + 1) .frameLost) s = .next u
      ∧ u.blk.eraseCnt.toNat = n + 1 ∧ u.blk.pitch.toNat = p ∧ u.blk.overlap.toNat = p / 4
      ∧ u.blk.cycleLen.toNat = min (n + 1) 3 * p
      ∧ (n = 0 → u.blk.offset.toNat = 80 % p)
      ∧ (1 ≤ n → n ≤ 5 → u.blk.offset.toNat = (t.blk.offset.toNat + 80) % (min (n + 1) 3 * p))
      ∧ (6 ≤ n → u.blk.offset = t.blk.offset ∧ FramePushed t.blk u.blk (fun _ => 0))

/-! ### The bus (20_memory.md) -/

/-- R50, with the register table of R20 written out: what every address decodes to. -/
def Obligations.AddressMapIsExact : Prop :=
  ∀ a : BusAddr,
    (a.toNat % 4 ≠ 0 → decodeAddr a = .unmapped)
      ∧ (∀ r n, (r, n) ∈ [(Reg.id, 0x000), (.ctrl, 0x004), (.cmd, 0x008), (.status, 0x00C), (.eraseCnt, 0x010),
          (.pitch, 0x014), (.overlap, 0x018), (.cycleLen, 0x01C), (.offset, 0x020), (.bufStart, 0x024), (.bufEnd, 0x028),
          (.pePitch, 0x030), (.peCoarseLag, 0x034), (.peLag, 0x038), (.peCorrLo, 0x040), (.peCorrHi, 0x044),
          (.peEnergyLo, 0x048), (.peEnergyHi, 0x04C)] → (decodeAddr a = .reg r ↔ a.toNat = n))
      ∧ (∀ k, decodeAddr a = .elem .fin k ↔ a.toNat = 0x0400 + 4 * k ∧ a.toNat ≤ 0x053C)
      ∧ (∀ k, decodeAddr a = .elem .fout k ↔ a.toNat = 0x0600 + 4 * k ∧ a.toNat ≤ 0x073C)
      ∧ (∀ k, decodeAddr a = .elem .hist k ↔ a.toNat = 0x0800 + 4 * k ∧ a.toNat ≤ 0x0E14)
      ∧ (∀ k, decodeAddr a = .elem .pbuf k ↔ a.toNat = 0x1000 + 4 * k ∧ a.toNat ≤ 0x1614)
      ∧ (∀ k, decodeAddr a = .elem .lastq k ↔ a.toNat = 0x1800 + 4 * k ∧ a.toNat ≤ 0x1874)
      ∧ (decodeAddr a = .unmapped ↔ (∀ r, decodeAddr a ≠ .reg r) ∧ ∀ g k, decodeAddr a ≠ .elem g k)

/-- R51: a word is a legal sample word exactly when it is a sample's sign extension, and the word of a sample stores
that sample. -/
def Obligations.LegalSampleWordsAreSignExtensions : Prop :=
  (∀ w : Word, legalSampleWord w = true ↔ ∃ v : Sample, w = v.signExtend 32)
    ∧ (∀ v : Sample, sampleOfWord (wordOfSample v) = v)
    ∧ ∀ w : Word, legalSampleWord w = true ↔ -32768 ≤ w.toInt ∧ w.toInt ≤ 32767

/-- R51, R53 steps 7 to 9: a write to an element of a host-writable memory while the block is idle, outside a burst
where the region is frozen, stores a legal word and refuses another with RANGE; the next read returns the word, and
every other element and field stays. -/
def Obligations.SampleWriteStoresOrRefuses : Prop :=
  ∀ (s : State) (a : BusAddr) (g : Region) (k : Nat) (w : Word),
    decodeAddr a = .elem g k → g ≠ .fout → s.blk.pend = none →
    ((g = .pbuf ∨ g = .lastq) → s.blk.eraseCnt = 0) →
      (legalSampleWord w = true →
          (memRead { s with blk := memWrite s.blk a w } a).rdata = some w
            ∧ memWrite s.blk a w = s.blk.withMem g ((memWrite s.blk a w).mem g)
            ∧ ∀ j, j ≠ k → ((memWrite s.blk a w).mem g).get j = (s.blk.mem g).get j)
        ∧ (legalSampleWord w = false → memWrite s.blk a w = raiseError s.blk .range)

/-- R53 steps 1, 4, 6 and 7, R136: the errors of a write in their priority, each with no other effect: ADDR before all,
BUSY before the command's and the data's checks, a read-only target ignored, WPROT before RANGE. -/
def Obligations.WriteErrorsHavePriority : Prop :=
  ∀ (b : Block) (a : BusAddr) (w : Word),
    (decodeAddr a = .unmapped → memWrite b a w = raiseError b .addr)
      ∧ (∀ r, decodeAddr a = .reg r → r ≠ .ctrl → r ≠ .status → b.pend ≠ none →
          memWrite b a w = raiseError b .busy)
      ∧ (∀ g k, decodeAddr a = .elem g k → b.pend ≠ none → memWrite b a w = raiseError b .busy)
      ∧ (∀ r, decodeAddr a = .reg r → r ≠ .ctrl → r ≠ .status → r ≠ .cmd → b.pend = none → memWrite b a w = b)
      ∧ (∀ k, decodeAddr a = .elem .fout k → b.pend = none → memWrite b a w = b)
      ∧ ∀ g k, decodeAddr a = .elem g k → (g = .pbuf ∨ g = .lastq) → b.pend = none → b.eraseCnt ≠ 0 →
          memWrite b a w = raiseError b .wprot

/-- R22, R148: a write to `CTRL` with bit 0 set leaves every field at its reset value, whatever the state; with bit 0
clear it has no effect. -/
def Obligations.SoftResetRestoresEveryField : Prop :=
  ∀ (b : Block) (w : Word),
    (w.getLsbD 0 = true → memWrite b 0x004 w =
        { hist := [], pbuf := [], lastq := [], fin := [], fout := []
          eraseCnt := 0, pitch := 0, overlap := 0, cycleLen := 0, offset := 0
          pePitch := 0, peCoarseLag := 0, peLag := 0, peCorr := 0, peEnergy := 0
          err := false, errCode := .noError, pend := none })
      ∧ (w.getLsbD 0 = false → memWrite b 0x004 w = b)

/-- R24, R133: the fields of the `STATUS` word with the seven codes, and its write: bit 1 set clears the error record and nothing else, any other
write has no effect, a pending command or not. -/
def Obligations.StatusWordAndItsClear : Prop :=
  ∀ (b : Block) (w : Word),
    (statusWord b).getLsbD 0 = b.pend.isSome ∧ (statusWord b).getLsbD 1 = b.err
      ∧ (statusWord b).extractLsb' 2 2 = 0 ∧ (statusWord b).extractLsb' 4 4 = b.errCode.code
      ∧ (statusWord b).extractLsb' 8 24 = 0
      ∧ ErrCode.noError.code = 0 ∧ ErrCode.illegalCmd.code = 1 ∧ ErrCode.busy.code = 2 ∧ ErrCode.state.code = 3
      ∧ ErrCode.addr.code = 4 ∧ ErrCode.wprot.code = 5 ∧ ErrCode.range.code = 6
      ∧ (w.getLsbD 1 = true → memWrite b 0x00C w = { b with err := false, errCode := .noError })
      ∧ (w.getLsbD 1 = false → memWrite b 0x00C w = b)

/-- R52, R57: what a read returns and leaves. At an unmapped address it returns 0 and raises ADDR; `ID`, `CTRL`, `CMD`
and `STATUS` read as stated in every state; a register or an element returns its value while the block is idle, and the
next free value while a command is pending; no read changes the block but by ADDR. Where the word goes and how free
values are told apart is the model's choice (log entries 2 and 3). -/
def Obligations.ReadsReturnTheirValue : Prop :=
  ∀ (s : State) (a : BusAddr),
    (decodeAddr a = .unmapped → memRead s a = { s with blk := raiseError s.blk .addr, rdata := some 0 })
      ∧ (decodeAddr a = .reg .id → memRead s a = { s with rdata := some 0x504C4301 })
      ∧ ((decodeAddr a = .reg .ctrl ∨ decodeAddr a = .reg .cmd) → memRead s a = { s with rdata := some 0 })
      ∧ (decodeAddr a = .reg .status → memRead s a = { s with rdata := some (statusWord s.blk) })
      ∧ (∀ r, decodeAddr a = .reg r → s.blk.pend = none → memRead s a = { s with rdata := some (regValue s.blk r) })
      ∧ (∀ g k, decodeAddr a = .elem g k → s.blk.pend = none →
          memRead s a = { s with rdata := some (((s.blk.mem g).get k).signExtend 32) })
      ∧ (∀ g k, decodeAddr a = .elem g k → s.blk.pend ≠ none →
          memRead s a = { s with rdata := some (Config.anyWord s.draws), draws := s.draws + 1 })
      ∧ ∀ r, decodeAddr a = .reg r → r ∉ [Reg.id, .ctrl, .cmd, .status] → s.blk.pend ≠ none →
          memRead s a = { s with rdata := some (Config.anyWord s.draws), draws := s.draws + 1 }

/-- R25 to R36: the value of each register in an idle read: its field, `BUF_START` 390 less `CYCLE_LEN`,
`BUF_END` 390, and the halves of the 64-bit results, which put together give the result. -/
def Obligations.IdleRegisterReads : Prop :=
  ∀ (s : State) (a : BusAddr) (r : Reg), decodeAddr a = .reg r → s.blk.pend = none →
    memRead s a = { s with rdata := some (regValue s.blk r) }
      ∧ regValue s.blk .eraseCnt = s.blk.eraseCnt ∧ regValue s.blk .pitch = s.blk.pitch
      ∧ regValue s.blk .overlap = s.blk.overlap ∧ regValue s.blk .cycleLen = s.blk.cycleLen
      ∧ regValue s.blk .offset = s.blk.offset ∧ regValue s.blk .pePitch = s.blk.pePitch
      ∧ regValue s.blk .peCoarseLag = s.blk.peCoarseLag ∧ regValue s.blk .peLag = s.blk.peLag
      ∧ (regValue s.blk .bufStart).toInt = (390 - (s.blk.cycleLen.toNat : Int)).bmod (2 ^ 32)
      ∧ regValue s.blk .bufEnd = 390
      ∧ regValue s.blk .peCorrHi ++ regValue s.blk .peCorrLo = s.blk.peCorr
      ∧ regValue s.blk .peEnergyHi ++ regValue s.blk .peEnergyLo = s.blk.peEnergy

/-- R74, R75: a write to `CMD` while the block is idle. `snap` in a burst is refused with WPROT, a frame command in a
corrupted burst with STATE, an illegal word with ILLEGAL_CMD, each with no other effect; every other legal word becomes
the pending command and nothing else changes. -/
def Obligations.CommandWriteValidates : Prop :=
  ∀ (b : Block) (w : Word), b.pend = none →
    ((∃ r, decode w = .error r) → memWrite b 0x008 w = raiseError b .illegalCmd)
      ∧ (w = 0x00000003 → b.eraseCnt ≠ 0 → memWrite b 0x008 w = raiseError b .wprot)
      ∧ (w = 0x00000001 ∨ w = 0x00000011 → b.eraseCnt ≠ 0 → ¬ b.Cons → memWrite b 0x008 w = raiseError b .state)
      ∧ (w = 0x00000000 ∨ w = 0x00000002 → memWrite b 0x008 w = { b with pend := some w })
      ∧ (w = 0x00000003 → b.eraseCnt = 0 → memWrite b 0x008 w = { b with pend := some w })
      ∧ (w = 0x00000001 ∨ w = 0x00000011 → b.eraseCnt = 0 ∨ b.Cons → memWrite b 0x008 w = { b with pend := some w })

/-! ### Errors and reset (60_exceptions.md, 70_reset_and_hazards.md) -/

/-- R134: raising records the code if no error is recorded, else nothing; and once recorded, the error survives every
step but a write of `STATUS` with bit 1 set and a reset, which the reset input is as long as it stays asserted. -/
def Obligations.FirstErrorIsKeptUntilCleared : Prop :=
  (∀ (b : Block) (c : ErrCode),
      (b.err = false → raiseError b c = { b with err := true, errCode := c }) ∧ (b.err = true → raiseError b c = b))
    ∧ ∀ s t : State, s.inReset = false → s.blk.err = true → step s = .next t →
        (∀ u ∈ s.turns.head?, u.clearsError = false ∧ u.resets = false) →
          t.blk.err = true ∧ t.blk.errCode = s.blk.errCode

/-- R47: every field of R15 and every computed view right after reset; the reset input's assertion, its release, and a
soft reset leave that block (for the turns between assertion and release see `AssertedResetHoldsTheBlock`). The turns of
the reset input (log entry 11), and that the list of turns, the last word read and the count of free values outlast it
(log entries 1, 2 and 3), are the model's choice. -/
def Obligations.ResetValues : Prop :=
  let b := State.reset.blk
  (∀ k, b.hist.get k = 0 ∧ b.pbuf.get k = 0 ∧ b.lastq.get k = 0 ∧ b.fin.get k = 0 ∧ b.fout.get k = 0)
    ∧ b.eraseCnt = 0 ∧ b.pitch = 0 ∧ b.overlap = 0 ∧ b.cycleLen = 0 ∧ b.offset = 0
    ∧ b.pePitch = 0 ∧ b.peCoarseLag = 0 ∧ b.peLag = 0 ∧ b.peCorr = 0 ∧ b.peEnergy = 0
    ∧ b.err = false ∧ b.errCode.code = 0 ∧ b.pend = none ∧ (statusWord b).getLsbD 0 = false
    ∧ regValue b .bufStart = 390 ∧ regValue b .bufEnd = 390 ∧ regValue b .id = 0x504C4301
    ∧ State.reset.inReset = false
    ∧ (∀ (s : State) (ts : List Turn), s.inReset = false → s.turns = .reset :: ts →
        step s = .next { s with blk := b, inReset := true, turns := ts })
    ∧ (∀ (s : State) (ts : List Turn), s.inReset = true → s.turns = .release :: ts →
        step s = .next { s with blk := b, inReset := false, turns := ts })
    ∧ ∀ (c : Block) (w : Word), w.getLsbD 0 = true → memWrite c 0x004 w = b

/-! ### Invariants and whole-machine rules -/

/-- The reset state meets every invariant below. -/
def Obligations.ResetMeetsTheInvariants : Prop :=
  State.reset.blk.EngineOk ∧ State.reset.blk.BurstRegsLegal ∧ State.reset.blk.PeRegsLegal
    ∧ State.reset.blk.MemWf ∧ State.reset.blk.PendOk ∧ State.reset.blk.ErrOk

/-- R46: every step keeps `ERASE_CNT = 0 or cons(s)`. -/
def Obligations.EngineStaysConsistent : Prop :=
  ∀ s t : State, s.blk.EngineOk → step s = .next t → t.blk.EngineOk

/-- R26 to R29 and R32 to R34: in a consistent engine every step keeps every burst register and PE result register at
its legal values. -/
def Obligations.RegistersStayLegal : Prop :=
  ∀ s t : State, s.blk.EngineOk → s.blk.BurstRegsLegal → s.blk.PeRegsLegal → step s = .next t →
    t.blk.BurstRegsLegal ∧ t.blk.PeRegsLegal

/-- Every step keeps the five sample memories in their canonical form, so at the sizes of R37 to R41. The form is the
model's choice (log entry 5). -/
def Obligations.MemoriesStayCanonical : Prop :=
  ∀ s t : State, s.blk.MemWf → step s = .next t → t.blk.MemWf

/-- R42, R73, R74: every step keeps the pending command valid: it is one of the five words and what validation asked of
the state at acceptance still holds. -/
def Obligations.PendingStaysValidated : Prop :=
  ∀ s t : State, s.blk.PendOk → step s = .next t → t.blk.PendOk

/-- R46, R58, R76: from a state whose pending command is valid, no step stops: an error is recorded and the machine goes
on (R137). That an empty list of turns is the engine's turn is the model's choice (log entry 1). -/
def Obligations.ValidMachineNeverStops : Prop :=
  ∀ s : State, s.blk.PendOk → ∃ t, step s = .next t

/-- R24, R133: every step keeps `ERR_CODE` 0 exactly while `ERR` is 0. -/
def Obligations.ErrorCodeFollowsErrorFlag : Prop :=
  ∀ s t : State, s.blk.ErrOk → step s = .next t → t.blk.ErrOk

/-- R25: only the completion of a frame command and a reset, its assertion or its hold, change `ERASE_CNT`. That an empty list of turns is the
engine's turn is the model's choice (log entry 1). -/
def Obligations.OnlyFramesAndResetsCountErasures : Prop :=
  ∀ s t : State, step s = .next t → t.blk.eraseCnt ≠ s.blk.eraseCnt →
    (s.engineNext = true ∧ (s.blk.pend = some 0x00000001 ∨ s.blk.pend = some 0x00000011))
      ∨ s.inReset = true ∨ ∃ u ∈ s.turns.head?, u.resets = true

/-- R39, R40, R37, R38: who writes the memories while the reset input is released. A step that changes `HIST` or `FOUT` by the engine completes a frame
command; no host access changes `FOUT`; `FIN` changes at host turns only; and while `ERASE_CNT ≠ 0` only the engine or
a reset changes `PBUF` or `LASTQ` (R155). That an empty list of turns is the engine's turn is the model's choice (log
entry 1). -/
def Obligations.MemoriesHaveTheirWriters : Prop :=
  ∀ s t : State, s.inReset = false → step s = .next t → (∀ u ∈ s.turns.head?, u.resets = false) →
    (s.engineNext = true →
        t.blk.fin = s.blk.fin
          ∧ (s.blk.pend ≠ some 0x00000001 → s.blk.pend ≠ some 0x00000011 →
              t.blk.hist = s.blk.hist ∧ t.blk.fout = s.blk.fout ∧ t.blk.lastq = s.blk.lastq))
      ∧ (s.engineNext = false →
          t.blk.fout = s.blk.fout
            ∧ (s.blk.eraseCnt ≠ 0 → t.blk.pbuf = s.blk.pbuf ∧ t.blk.lastq = s.blk.lastq))

/-- R53 step 4, R59, R77, R152: whatever the host reads and writes while a command is pending, short of a soft reset, the
command completes at the engine's next turn and leaves exactly the block it would have left with no such access, but
for the error record. The run outlasts the list of turns by one step: that this step is the engine's (log entry 1), and
that a frame command pending outside `cons` completes (log entry 9), is the model's choice. -/
def Obligations.HostCannotDisturbPendingCommand : Prop :=
  ∀ (s : State) (w : Word) (i : Instr), s.inReset = false → s.blk.pend = some w → decode w = .ok i →
    (∀ u ∈ s.turns, u.isAccess = true ∧ u.resets = false) →
      ∃ t c, Sys2Proof.core.run (s.turns.length + 1) s = .next t ∧ exec i s = .next c
        ∧ t.blk = { c.blk with err := t.blk.err, errCode := t.blk.errCode, pend := none } ∧ t.turns = []

/-- R144: a step of one instance leaves every other instance as it was. -/
def Obligations.InstancesAreIndependent : Prop :=
  ∀ (p q : Platform) (k j : Nat), p.stepAt k = .next q → j ≠ k → q[j]? = p[j]?

/-- R144: each instance has its own window and starts from its own reset, and an access to one changes no other. Where
the windows are apart, the instance whose window holds the address, and no other, gets the access; and accesses and steps
keep the windows apart. -/
def Obligations.AccessReachesOneWindow : Prop :=
  (∀ (p : Platform) (a k : Nat) (x : Engine) (mk : BusAddr → Turn),
      p.Wf → p[k]? = some x → x.answers a = true →
        (p.issue a mk)[k]? = some { x with st := { x.st with
            turns := x.st.turns ++ [mk (BitVec.ofNat 13 (a - x.base))] } }
          ∧ ∀ j, j ≠ k → (p.issue a mk)[j]? = p[j]?)
    ∧ (∀ (p : Platform) (a : Nat) (mk : BusAddr → Turn), (∀ x ∈ p, x.answers a = false) → p.issue a mk = p)
    ∧ (∀ (p : Platform) (a : Nat) (mk : BusAddr → Turn), p.Wf → (p.issue a mk).Wf)
    ∧ (∀ (p q : Platform) (k : Nat), p.Wf → p.stepAt k = .next q → q.Wf)
    ∧ ∀ (bases : List Nat) (k : Nat),
        (Platform.reset bases)[k]? = bases[k]?.map (fun a => { base := a, st := State.reset })

/-- R147: while the reset input is asserted every step leaves every field of the block at its reset value and answers no
access: a read returns no word, a write has no effect, and no address raises an error. Only the release ends it, and the
block then stands at its reset values. That an unanswered access is lost and not held back, and the turns themselves, are
the model's choice (log entries 1, 2, 3 and 11). -/
def Obligations.AssertedResetHoldsTheBlock : Prop :=
  (∀ s : State, s.inReset = true →
      ∃ t, step s = .next t ∧ t.blk = Block.reset ∧ t.turns = s.turns.tail ∧ t.draws = s.draws
        ∧ (t.inReset = false ↔ s.turns.head? = some .release)
        ∧ (∀ a, s.turns.head? = some (.read a) → t.rdata = none)
        ∧ ((∀ a, s.turns.head? ≠ some (.read a)) → t.rdata = s.rdata))
    ∧ ∀ s t : State, step s = .next t → t.inReset = true → t.blk = Block.reset
end

