-- ==== Sys2Proof/Laws/Arith.lean ====
section
/-! SUPPORT. The laws of the exact arithmetic (R12): `tdiv`, `clamp16`, samples as integers, sums. -/

namespace Sys2Proof.Machine

/-! ### tdiv -/

/-- `tdiv` is the integer division that rounds toward zero. -/
theorem tdiv_eq (n d : Int) (hd : 0 < d) : tdiv n d = n.tdiv d := by
  obtain ⟨k, rfl⟩ := Int.eq_ofNat_of_zero_le hd.le
  unfold tdiv
  rcases Int.lt_trichotomy n 0 with h | rfl | h
  · obtain ⟨m, hm⟩ := Int.eq_ofNat_of_zero_le (show 0 ≤ -n by omega)
    obtain rfl : n = -(m : Int) := by omega
    rw [Int.sign_eq_neg_one_of_neg h, Int.neg_tdiv]
    simp [Int.tdiv]
  · simp
  · obtain ⟨m, rfl⟩ := Int.eq_ofNat_of_zero_le h.le
    rw [Int.sign_eq_one_of_pos h]
    simp [Int.tdiv]

/-- A common positive factor cancels. -/
theorem tdiv_mul_mul (c n d : Int) (hc : 0 < c) (hd : 0 < d) : tdiv (c * n) (c * d) = tdiv n d := by
  rw [tdiv_eq _ _ (Int.mul_pos hc hd), tdiv_eq _ _ hd, Int.mul_tdiv_mul_of_pos _ _ hc]

/-- Rounding toward zero never leaves an interval of integers that holds the exact quotient. -/
theorem tdiv_bounds {n d lo hi : Int} (hd : 0 < d) (hlo : lo * d ≤ n) (hhi : n ≤ hi * d) :
    lo ≤ tdiv n d ∧ tdiv n d ≤ hi := by
  rw [tdiv_eq _ _ hd]
  rcases le_total 0 n with h | h
  · rw [Int.tdiv_eq_ediv_of_nonneg h]
    exact ⟨(Int.le_ediv_iff_mul_le hd).mpr hlo, Int.ediv_le_of_le_mul hd hhi⟩
  · have hneg : n.tdiv d = -((-n) / d) := by
      rw [← Int.tdiv_eq_ediv_of_nonneg (by omega : 0 ≤ -n), Int.neg_tdiv, neg_neg]
    rw [hneg]
    have h1 : (-n) / d ≤ -lo := Int.ediv_le_of_le_mul hd (by nlinarith)
    have h2 : -hi ≤ (-n) / d := (Int.le_ediv_iff_mul_le hd).mpr (by nlinarith)
    omega

/-! ### clamp16 and samples -/

theorem clamp16_of_range {v : Int} (h1 : -32768 ≤ v) (h2 : v ≤ 32767) : clamp16 v = v := by
  unfold clamp16
  rw [if_neg (by omega), if_neg (by omega)]

theorem clamp16_range (v : Int) : -32768 ≤ clamp16 v ∧ clamp16 v ≤ 32767 := by
  unfold clamp16
  split
  · omega
  · split <;> omega

theorem sample_range (v : Sample) : -32768 ≤ v.toInt ∧ v.toInt ≤ 32767 := by
  have h1 := BitVec.le_toInt v
  have h2 := BitVec.toInt_lt (x := v)
  norm_num at h1 h2
  omega

@[simp] theorem toSample_toInt (v : Sample) : toSample v.toInt = v := BitVec.ofInt_toInt

theorem toInt_toSample {v : Int} (h1 : -32768 ≤ v) (h2 : v ≤ 32767) : (toSample v).toInt = v := by
  unfold toSample
  rw [BitVec.toInt_ofInt]
  exact Int.bmod_eq_of_le (by norm_num; omega) (by norm_num; omega)

/-! ### Sums -/

theorem sumTo_congr {n : Nat} {f g : Nat → Int} (h : ∀ k < n, f k = g k) : sumTo n f = sumTo n g := by
  induction n with
  | zero => rfl
  | succ n ih => simp only [sumTo, ih fun k hk => h k (by omega), h n (by omega)]

theorem sumTo_bounds {n : Nat} {f : Nat → Int} {lo hi : Int} (h : ∀ k < n, lo ≤ f k ∧ f k ≤ hi) :
    (n : Int) * lo ≤ sumTo n f ∧ sumTo n f ≤ n * hi := by
  induction n with
  | zero => simp [sumTo]
  | succ n ih =>
    have := ih fun k hk => h k (by omega)
    have hn := h n (by omega)
    simp only [sumTo]
    push_cast
    constructor <;> nlinarith

/-- A sum seen from its other end: the first term split off. -/
theorem sumTo_succ_left (n : Nat) (f : Nat → Int) : sumTo (n + 1) f = f 0 + sumTo n fun k => f (k + 1) := by
  induction n with
  | zero => simp [sumTo]
  | succ n ih =>
    rw [sumTo, ih, sumTo]
    ring

/-! ### The gain -/

theorem gainNum_eq (e i : Nat) : gainNum e i = 400 - 80 * ((e : Int) - 1) - i := by
  simp [gainNum]

theorem recoveryGain_eq (e : Nat) : recoveryGain e = max 0 (6 - (e : Int)) := by
  simp only [recoveryGain, Config.ATTEN_DEN, Config.ATTEN_NUM]
  push_cast
  congr 1
  ring

end Sys2Proof.Machine
end

