-- ==== Sys2Proof/Laws/Memory.lean ====
section
/-! SUPPORT. The laws of the sample memories: what a read gives after a write and after a build, and that both keep
the canonical form. -/

namespace Sys2Proof.Machine

@[simp] theorem Memory.get_nil (k : Nat) : Memory.get [] k = 0 := rfl

theorem Memory.get_cons (i : Nat) (v : Sample) (m : Memory) (k : Nat) :
    Memory.get ((i, v) :: m) k = if i = k then v else Memory.get m k := rfl

/-! ### Reading after a write -/

theorem Memory.get_erase (m : Memory) (k j : Nat) :
    Memory.get (Memory.erase m k) j = if j = k then 0 else Memory.get m j := by
  induction m with
  | nil => simp [Memory.erase]
  | cons c m ih =>
    obtain ⟨i, v⟩ := c
    unfold Memory.erase at ih ⊢
    by_cases hik : i = k
    · subst hik
      simp only [bne_self_eq_false, List.filter_cons, Bool.false_eq_true, if_false, ih, Memory.get_cons]
      by_cases hj : j = i
      · simp [hj]
      · have hji : ¬ i = j := Ne.symm hj
        simp [hj, hji]
    · have : (i != k) = true := by simp [hik]
      simp only [List.filter_cons, this, if_true, Memory.get_cons, ih]
      by_cases hij : i = j
      · subst hij; simp [hik]
      · simp [hij]

theorem Memory.get_insert (m : Memory) (k : Nat) (v : Sample) (j : Nat) (h : ∀ c ∈ m, c.1 ≠ k) :
    Memory.get (Memory.insert m k v) j = if j = k then v else Memory.get m j := by
  induction m with
  | nil => simp [Memory.insert, Memory.get_cons, eq_comm]
  | cons c m ih =>
    obtain ⟨i, u⟩ := c
    have hi : i ≠ k := h (i, u) (by simp)
    have ih' := ih fun c hc => h c (by simp [hc])
    unfold Memory.insert
    split
    · simp only [Memory.get_cons]
      by_cases hj : j = k
      · simp [hj]
      · have hkj : ¬ k = j := Ne.symm hj
        simp [hj, hkj]
    · simp only [Memory.get_cons, ih']
      by_cases hij : i = j
      · subst hij; simp [hi]
      · simp [hij]

theorem Memory.ne_of_mem_erase (m : Memory) (k : Nat) : ∀ c ∈ Memory.erase m k, c.1 ≠ k := by
  intro c hc
  simpa using (List.mem_filter.mp hc).2

/-- A read after a write gives the value written, and every other element is left alone. -/
theorem Memory.get_set (m : Memory) (k : Nat) (v : Sample) (j : Nat) :
    Memory.get (Memory.set m k v) j = if j = k then v else Memory.get m j := by
  unfold Memory.set
  split
  · rename_i hv; rw [Memory.get_erase, hv]
  · rw [Memory.get_insert _ _ _ _ (Memory.ne_of_mem_erase m k), Memory.get_erase]
    split <;> rfl

/-! ### Reading after a build -/

theorem Memory.get_buildFrom (f : Nat → Sample) (n lo k : Nat) :
    Memory.get (Memory.buildFrom f n lo) k = if lo ≤ k ∧ k < lo + n then f k else 0 := by
  induction n generalizing lo with
  | zero =>
    rw [if_neg (by omega)]
    rfl
  | succ n ih =>
    unfold Memory.buildFrom
    dsimp only
    split
    · rename_i hv
      rw [ih]
      by_cases hk : k = lo
      · subst hk
        rw [if_neg (by omega), if_pos (by omega), hv]
      · by_cases h : lo + 1 ≤ k ∧ k < lo + 1 + n
        · rw [if_pos h, if_pos (by omega)]
        · rw [if_neg h, if_neg (by omega)]
    · rw [Memory.get_cons, ih]
      by_cases hk : lo = k
      · subst hk
        rw [if_pos rfl, if_pos (by omega)]
      · rw [if_neg hk]
        by_cases h : lo + 1 ≤ k ∧ k < lo + 1 + n
        · rw [if_pos h, if_pos (by omega)]
        · rw [if_neg h, if_neg (by omega)]

/-- A built memory holds `f` at its own indices and nothing elsewhere. -/
@[simp] theorem Memory.get_build (n : Nat) (f : Nat → Sample) (k : Nat) :
    Memory.get (Memory.build n f) k = if k < n then f k else 0 := by
  unfold Memory.build
  rw [Memory.get_buildFrom]
  by_cases h : k < n
  · rw [if_pos h, if_pos (by omega)]
  · rw [if_neg h, if_neg (by omega)]

/-! ### The canonical form -/

theorem Memory.wfFrom_cons (n lo k : Nat) (v : Sample) (m : Memory) :
    Memory.wfFrom n lo ((k, v) :: m) = true
      ↔ lo ≤ k ∧ k < n ∧ v ≠ 0 ∧ Memory.wfFrom n (k + 1) m = true := by
  simp [Memory.wfFrom, and_assoc]

theorem Memory.wfFrom_mono (n : Nat) {lo lo' : Nat} (h : lo' ≤ lo) {m : Memory}
    (hm : Memory.wfFrom n lo m = true) : Memory.wfFrom n lo' m = true := by
  cases m with
  | nil => rfl
  | cons c m =>
    obtain ⟨k, v⟩ := c
    rw [Memory.wfFrom_cons] at hm ⊢
    exact ⟨h.trans hm.1, hm.2⟩

/-- Every listed index is at least the bound and below the size. -/
theorem Memory.wfFrom_mem {n lo : Nat} {m : Memory} (hm : Memory.wfFrom n lo m = true) :
    ∀ c ∈ m, lo ≤ c.1 ∧ c.1 < n := by
  induction m generalizing lo with
  | nil => simp
  | cons c m ih =>
    obtain ⟨k, v⟩ := c
    rw [Memory.wfFrom_cons] at hm
    intro c hc
    rcases List.mem_cons.mp hc with rfl | hc
    · exact ⟨hm.1, hm.2.1⟩
    · have := ih hm.2.2.2 c hc
      exact ⟨by omega, this.2⟩

theorem Memory.wfFrom_erase {n lo : Nat} {m : Memory} (k : Nat) (hm : Memory.wfFrom n lo m = true) :
    Memory.wfFrom n lo (Memory.erase m k) = true := by
  induction m generalizing lo with
  | nil => rfl
  | cons c m ih =>
    obtain ⟨i, v⟩ := c
    rw [Memory.wfFrom_cons] at hm
    have ih' := ih hm.2.2.2
    unfold Memory.erase at ih' ⊢
    rw [List.filter_cons]
    split
    · exact (Memory.wfFrom_cons ..).mpr ⟨hm.1, hm.2.1, hm.2.2.1, ih'⟩
    · exact Memory.wfFrom_mono n (by omega) ih'

theorem Memory.wfFrom_insert {n lo : Nat} {m : Memory} {k : Nat} {v : Sample} (hlo : lo ≤ k) (hk : k < n)
    (hv : v ≠ 0) (hne : ∀ c ∈ m, c.1 ≠ k) (hm : Memory.wfFrom n lo m = true) :
    Memory.wfFrom n lo (Memory.insert m k v) = true := by
  induction m generalizing lo with
  | nil => exact (Memory.wfFrom_cons ..).mpr ⟨hlo, hk, hv, rfl⟩
  | cons c m ih =>
    obtain ⟨i, u⟩ := c
    rw [Memory.wfFrom_cons] at hm
    have hi : i ≠ k := hne (i, u) (by simp)
    unfold Memory.insert
    split
    · rename_i hlt
      exact (Memory.wfFrom_cons ..).mpr
        ⟨hlo, hk, hv, (Memory.wfFrom_cons ..).mpr ⟨hlt, hm.2.1, hm.2.2.1, hm.2.2.2⟩⟩
    · rename_i hge
      dsimp only at hge
      exact (Memory.wfFrom_cons ..).mpr
        ⟨hm.1, hm.2.1, hm.2.2.1, ih (by omega) (fun c hc => hne c (by simp [hc])) hm.2.2.2⟩

/-- Writing an element of the memory keeps the canonical form. -/
theorem Memory.wf_set {n : Nat} {m : Memory} {k : Nat} (v : Sample) (hk : k < n) (hm : m.wf n = true) :
    (Memory.set m k v).wf n = true := by
  unfold Memory.set Memory.wf
  split
  · exact Memory.wfFrom_erase k hm
  · rename_i hv
    exact Memory.wfFrom_insert (Nat.zero_le _) hk hv (Memory.ne_of_mem_erase m k) (Memory.wfFrom_erase k hm)

theorem Memory.wfFrom_buildFrom (f : Nat → Sample) (n size lo : Nat) (h : lo + n ≤ size) :
    Memory.wfFrom size lo (Memory.buildFrom f n lo) = true := by
  induction n generalizing lo with
  | zero => rfl
  | succ n ih =>
    have ih' := ih (lo + 1) (by omega)
    unfold Memory.buildFrom
    dsimp only
    split
    · exact Memory.wfFrom_mono size (by omega) ih'
    · rename_i hv
      exact (Memory.wfFrom_cons ..).mpr ⟨le_refl _, by omega, hv, ih'⟩

/-- A built memory has the canonical form. -/
theorem Memory.wf_build (n : Nat) (f : Nat → Sample) : (Memory.build n f).wf n = true :=
  Memory.wfFrom_buildFrom f n n 0 (by omega)

theorem Memory.wf_nil (n : Nat) : Memory.wf n [] = true := rfl

/-- Beyond its size a well-formed memory reads 0. -/
theorem Memory.get_eq_zero_of_wfFrom {n lo : Nat} {m : Memory} (hm : Memory.wfFrom n lo m = true) {k : Nat}
    (hk : k < lo ∨ n ≤ k) : Memory.get m k = 0 := by
  induction m generalizing lo with
  | nil => rfl
  | cons c m ih =>
    obtain ⟨i, v⟩ := c
    rw [Memory.wfFrom_cons] at hm
    rw [Memory.get_cons, if_neg (by omega)]
    exact ih hm.2.2.2 (by omega)

/-- The canonical form is canonical: memories that read alike are equal. -/
theorem Memory.ext_of_wfFrom {n lo : Nat} {m m' : Memory} (hm : Memory.wfFrom n lo m = true)
    (hm' : Memory.wfFrom n lo m' = true) (h : ∀ k, Memory.get m k = Memory.get m' k) : m = m' := by
  induction m generalizing m' lo with
  | nil =>
    cases m' with
    | nil => rfl
    | cons c m' =>
      obtain ⟨k, v⟩ := c
      rw [Memory.wfFrom_cons] at hm'
      have := h k
      rw [Memory.get_cons, if_pos rfl] at this
      exact absurd this.symm hm'.2.2.1
  | cons c m ih =>
    obtain ⟨i, v⟩ := c
    rw [Memory.wfFrom_cons] at hm
    have hi := h i
    rw [Memory.get_cons, if_pos rfl] at hi
    cases m' with
    | nil => exact absurd hi hm.2.2.1
    | cons c' m' =>
      obtain ⟨i', v'⟩ := c'
      rw [Memory.wfFrom_cons] at hm'
      have hi' := h i'
      rw [Memory.get_cons i', if_pos rfl, Memory.get_cons] at hi'
      rw [Memory.get_cons] at hi
      have hii : i = i' := by
        by_contra hne
        rw [if_neg (fun e => hne e.symm)] at hi
        rw [if_neg hne] at hi'
        rcases Nat.lt_or_gt_of_ne hne with hlt | hgt
        · exact hm.2.2.1 (hi.trans (Memory.get_eq_zero_of_wfFrom hm'.2.2.2 (Or.inl (by omega))))
        · exact hm'.2.2.1 (hi'.symm.trans (Memory.get_eq_zero_of_wfFrom hm.2.2.2 (Or.inl (by omega))))
      subst hii
      rw [if_pos rfl] at hi
      subst hi
      have hrest : m = m' := by
        refine ih hm.2.2.2 hm'.2.2.2 fun k => ?_
        by_cases hk : i = k
        · subst hk
          rw [Memory.get_eq_zero_of_wfFrom hm.2.2.2 (Or.inl (by omega)),
            Memory.get_eq_zero_of_wfFrom hm'.2.2.2 (Or.inl (by omega))]
        · have := h k
          rwa [Memory.get_cons, Memory.get_cons, if_neg hk, if_neg hk] at this
      rw [hrest]

/-- Two memories of one size in canonical form that read alike are equal. -/
theorem Memory.ext_of_wf {n : Nat} {m m' : Memory} (hm : m.wf n = true) (hm' : m'.wf n = true)
    (h : ∀ k, Memory.get m k = Memory.get m' k) : m = m' := Memory.ext_of_wfFrom hm hm' h

/-! ### Regions of the block -/

@[simp] theorem Block.mem_withMem (b : Block) (g : Region) (m : Memory) : (b.withMem g m).mem g = m := by
  cases g <;> rfl

theorem Block.mem_withMem_ne (b : Block) {g g' : Region} (m : Memory) (h : g' ≠ g) :
    (b.withMem g m).mem g' = b.mem g' := by
  cases g <;> cases g' <;> first | rfl | exact absurd rfl h

end Sys2Proof.Machine
end

