-- ==== Sys2Proof/Laws/State.lean ====
section
/-! SUPPORT. One lemma per field per named update of the block and of the state, so that no proof unfolds an update. -/

namespace Sys2Proof.Machine

/-! ### clearError (R24) -/

@[simp] theorem clearError_hist (b : Block) : (clearError b).hist = b.hist := rfl
@[simp] theorem clearError_pbuf (b : Block) : (clearError b).pbuf = b.pbuf := rfl
@[simp] theorem clearError_lastq (b : Block) : (clearError b).lastq = b.lastq := rfl
@[simp] theorem clearError_fin (b : Block) : (clearError b).fin = b.fin := rfl
@[simp] theorem clearError_fout (b : Block) : (clearError b).fout = b.fout := rfl
@[simp] theorem clearError_eraseCnt (b : Block) : (clearError b).eraseCnt = b.eraseCnt := rfl
@[simp] theorem clearError_pitch (b : Block) : (clearError b).pitch = b.pitch := rfl
@[simp] theorem clearError_overlap (b : Block) : (clearError b).overlap = b.overlap := rfl
@[simp] theorem clearError_cycleLen (b : Block) : (clearError b).cycleLen = b.cycleLen := rfl
@[simp] theorem clearError_offset (b : Block) : (clearError b).offset = b.offset := rfl
@[simp] theorem clearError_pePitch (b : Block) : (clearError b).pePitch = b.pePitch := rfl
@[simp] theorem clearError_peCoarseLag (b : Block) : (clearError b).peCoarseLag = b.peCoarseLag := rfl
@[simp] theorem clearError_peLag (b : Block) : (clearError b).peLag = b.peLag := rfl
@[simp] theorem clearError_peCorr (b : Block) : (clearError b).peCorr = b.peCorr := rfl
@[simp] theorem clearError_peEnergy (b : Block) : (clearError b).peEnergy = b.peEnergy := rfl
@[simp] theorem clearError_err (b : Block) : (clearError b).err = false := rfl
@[simp] theorem clearError_errCode (b : Block) : (clearError b).errCode = .noError := rfl
@[simp] theorem clearError_pend (b : Block) : (clearError b).pend = b.pend := rfl

/-! ### raiseError (R134) -/

@[simp] theorem raiseError_hist (b : Block) (c : ErrCode) : (raiseError b c).hist = b.hist := by
  unfold raiseError; split <;> simp_all
@[simp] theorem raiseError_pbuf (b : Block) (c : ErrCode) : (raiseError b c).pbuf = b.pbuf := by
  unfold raiseError; split <;> simp_all
@[simp] theorem raiseError_lastq (b : Block) (c : ErrCode) : (raiseError b c).lastq = b.lastq := by
  unfold raiseError; split <;> simp_all
@[simp] theorem raiseError_fin (b : Block) (c : ErrCode) : (raiseError b c).fin = b.fin := by
  unfold raiseError; split <;> simp_all
@[simp] theorem raiseError_fout (b : Block) (c : ErrCode) : (raiseError b c).fout = b.fout := by
  unfold raiseError; split <;> simp_all
@[simp] theorem raiseError_eraseCnt (b : Block) (c : ErrCode) : (raiseError b c).eraseCnt = b.eraseCnt := by
  unfold raiseError; split <;> simp_all
@[simp] theorem raiseError_pitch (b : Block) (c : ErrCode) : (raiseError b c).pitch = b.pitch := by
  unfold raiseError; split <;> simp_all
@[simp] theorem raiseError_overlap (b : Block) (c : ErrCode) : (raiseError b c).overlap = b.overlap := by
  unfold raiseError; split <;> simp_all
@[simp] theorem raiseError_cycleLen (b : Block) (c : ErrCode) : (raiseError b c).cycleLen = b.cycleLen := by
  unfold raiseError; split <;> simp_all
@[simp] theorem raiseError_offset (b : Block) (c : ErrCode) : (raiseError b c).offset = b.offset := by
  unfold raiseError; split <;> simp_all
@[simp] theorem raiseError_pePitch (b : Block) (c : ErrCode) : (raiseError b c).pePitch = b.pePitch := by
  unfold raiseError; split <;> simp_all
@[simp] theorem raiseError_peCoarseLag (b : Block) (c : ErrCode) : (raiseError b c).peCoarseLag = b.peCoarseLag := by
  unfold raiseError; split <;> simp_all
@[simp] theorem raiseError_peLag (b : Block) (c : ErrCode) : (raiseError b c).peLag = b.peLag := by
  unfold raiseError; split <;> simp_all
@[simp] theorem raiseError_peCorr (b : Block) (c : ErrCode) : (raiseError b c).peCorr = b.peCorr := by
  unfold raiseError; split <;> simp_all
@[simp] theorem raiseError_peEnergy (b : Block) (c : ErrCode) : (raiseError b c).peEnergy = b.peEnergy := by
  unfold raiseError; split <;> simp_all
@[simp] theorem raiseError_err (b : Block) (c : ErrCode) : (raiseError b c).err = true := by
  unfold raiseError; split <;> simp_all
@[simp] theorem raiseError_errCode (b : Block) (c : ErrCode) : (raiseError b c).errCode = if b.err then b.errCode else c := by
  unfold raiseError; split <;> simp_all
@[simp] theorem raiseError_pend (b : Block) (c : ErrCode) : (raiseError b c).pend = b.pend := by
  unfold raiseError; split <;> simp_all

/-! ### writePE (R101) -/

@[simp] theorem writePE_hist (b : Block) (r : PEResult) : (writePE b r).hist = b.hist := rfl
@[simp] theorem writePE_pbuf (b : Block) (r : PEResult) : (writePE b r).pbuf = b.pbuf := rfl
@[simp] theorem writePE_lastq (b : Block) (r : PEResult) : (writePE b r).lastq = b.lastq := rfl
@[simp] theorem writePE_fin (b : Block) (r : PEResult) : (writePE b r).fin = b.fin := rfl
@[simp] theorem writePE_fout (b : Block) (r : PEResult) : (writePE b r).fout = b.fout := rfl
@[simp] theorem writePE_eraseCnt (b : Block) (r : PEResult) : (writePE b r).eraseCnt = b.eraseCnt := rfl
@[simp] theorem writePE_pitch (b : Block) (r : PEResult) : (writePE b r).pitch = b.pitch := rfl
@[simp] theorem writePE_overlap (b : Block) (r : PEResult) : (writePE b r).overlap = b.overlap := rfl
@[simp] theorem writePE_cycleLen (b : Block) (r : PEResult) : (writePE b r).cycleLen = b.cycleLen := rfl
@[simp] theorem writePE_offset (b : Block) (r : PEResult) : (writePE b r).offset = b.offset := rfl
@[simp] theorem writePE_pePitch (b : Block) (r : PEResult) : (writePE b r).pePitch = BitVec.ofNat 32 r.pitch := rfl
@[simp] theorem writePE_peCoarseLag (b : Block) (r : PEResult) : (writePE b r).peCoarseLag = BitVec.ofNat 32 r.coarse := rfl
@[simp] theorem writePE_peLag (b : Block) (r : PEResult) : (writePE b r).peLag = BitVec.ofNat 32 r.lag := rfl
@[simp] theorem writePE_peCorr (b : Block) (r : PEResult) : (writePE b r).peCorr = BitVec.ofInt 64 r.corr := rfl
@[simp] theorem writePE_peEnergy (b : Block) (r : PEResult) : (writePE b r).peEnergy = BitVec.ofInt 64 r.energy := rfl
@[simp] theorem writePE_err (b : Block) (r : PEResult) : (writePE b r).err = b.err := rfl
@[simp] theorem writePE_errCode (b : Block) (r : PEResult) : (writePE b r).errCode = b.errCode := rfl
@[simp] theorem writePE_pend (b : Block) (r : PEResult) : (writePE b r).pend = b.pend := rfl

/-! ### stitch (R113) -/

@[simp] theorem stitch_hist (b : Block) : (stitch b).hist = b.hist := rfl
@[simp] theorem stitch_lastq (b : Block) : (stitch b).lastq = b.lastq := rfl
@[simp] theorem stitch_pbuf (b : Block) : (stitch b).pbuf = stitchedPbuf b := rfl
@[simp] theorem stitch_fin (b : Block) : (stitch b).fin = b.fin := rfl
@[simp] theorem stitch_fout (b : Block) : (stitch b).fout = b.fout := rfl
@[simp] theorem stitch_eraseCnt (b : Block) : (stitch b).eraseCnt = b.eraseCnt := rfl
@[simp] theorem stitch_pitch (b : Block) : (stitch b).pitch = b.pitch := rfl
@[simp] theorem stitch_overlap (b : Block) : (stitch b).overlap = b.overlap := rfl
@[simp] theorem stitch_cycleLen (b : Block) : (stitch b).cycleLen = b.cycleLen := rfl
@[simp] theorem stitch_offset (b : Block) : (stitch b).offset = b.offset := rfl
@[simp] theorem stitch_pePitch (b : Block) : (stitch b).pePitch = b.pePitch := rfl
@[simp] theorem stitch_peCoarseLag (b : Block) : (stitch b).peCoarseLag = b.peCoarseLag := rfl
@[simp] theorem stitch_peLag (b : Block) : (stitch b).peLag = b.peLag := rfl
@[simp] theorem stitch_peCorr (b : Block) : (stitch b).peCorr = b.peCorr := rfl
@[simp] theorem stitch_peEnergy (b : Block) : (stitch b).peEnergy = b.peEnergy := rfl
@[simp] theorem stitch_err (b : Block) : (stitch b).err = b.err := rfl
@[simp] theorem stitch_errCode (b : Block) : (stitch b).errCode = b.errCode := rfl
@[simp] theorem stitch_pend (b : Block) : (stitch b).pend = b.pend := rfl

/-! ### captureTail (R112) -/

@[simp] theorem captureTail_hist (b : Block) : (captureTail b).hist = b.hist := rfl
@[simp] theorem captureTail_pbuf (b : Block) : (captureTail b).pbuf = b.pbuf := rfl
@[simp] theorem captureTail_lastq (b : Block) : (captureTail b).lastq = capturedLastq b := rfl
@[simp] theorem captureTail_fin (b : Block) : (captureTail b).fin = b.fin := rfl
@[simp] theorem captureTail_fout (b : Block) : (captureTail b).fout = b.fout := rfl
@[simp] theorem captureTail_eraseCnt (b : Block) : (captureTail b).eraseCnt = b.eraseCnt := rfl
@[simp] theorem captureTail_pitch (b : Block) : (captureTail b).pitch = b.pitch := rfl
@[simp] theorem captureTail_overlap (b : Block) : (captureTail b).overlap = b.overlap := rfl
@[simp] theorem captureTail_cycleLen (b : Block) : (captureTail b).cycleLen = b.cycleLen := rfl
@[simp] theorem captureTail_offset (b : Block) : (captureTail b).offset = b.offset := rfl
@[simp] theorem captureTail_pePitch (b : Block) : (captureTail b).pePitch = b.pePitch := rfl
@[simp] theorem captureTail_peCoarseLag (b : Block) : (captureTail b).peCoarseLag = b.peCoarseLag := rfl
@[simp] theorem captureTail_peLag (b : Block) : (captureTail b).peLag = b.peLag := rfl
@[simp] theorem captureTail_peCorr (b : Block) : (captureTail b).peCorr = b.peCorr := rfl
@[simp] theorem captureTail_peEnergy (b : Block) : (captureTail b).peEnergy = b.peEnergy := rfl
@[simp] theorem captureTail_err (b : Block) : (captureTail b).err = b.err := rfl
@[simp] theorem captureTail_errCode (b : Block) : (captureTail b).errCode = b.errCode := rfl
@[simp] theorem captureTail_pend (b : Block) : (captureTail b).pend = b.pend := rfl

/-! ### arm (R112) -/

@[simp] theorem arm_hist (b : Block) (r : PEResult) : (arm b r).hist = b.hist := rfl
@[simp] theorem arm_pbuf (b : Block) (r : PEResult) : (arm b r).pbuf = b.pbuf := rfl
@[simp] theorem arm_lastq (b : Block) (r : PEResult) : (arm b r).lastq =
    capturedLastq { writePE b r with pitch := BitVec.ofNat 32 r.pitch, overlap := BitVec.ofNat 32 (r.pitch >>> 2) } :=
  rfl
@[simp] theorem arm_fin (b : Block) (r : PEResult) : (arm b r).fin = b.fin := rfl
@[simp] theorem arm_fout (b : Block) (r : PEResult) : (arm b r).fout = b.fout := rfl
@[simp] theorem arm_eraseCnt (b : Block) (r : PEResult) : (arm b r).eraseCnt = b.eraseCnt := rfl
@[simp] theorem arm_pitch (b : Block) (r : PEResult) : (arm b r).pitch = BitVec.ofNat 32 r.pitch := rfl
@[simp] theorem arm_overlap (b : Block) (r : PEResult) : (arm b r).overlap = BitVec.ofNat 32 (r.pitch >>> 2) := rfl
@[simp] theorem arm_cycleLen (b : Block) (r : PEResult) : (arm b r).cycleLen = BitVec.ofNat 32 r.pitch := rfl
@[simp] theorem arm_offset (b : Block) (r : PEResult) : (arm b r).offset = 0 := rfl
@[simp] theorem arm_pePitch (b : Block) (r : PEResult) : (arm b r).pePitch = BitVec.ofNat 32 r.pitch := rfl
@[simp] theorem arm_peCoarseLag (b : Block) (r : PEResult) : (arm b r).peCoarseLag = BitVec.ofNat 32 r.coarse := rfl
@[simp] theorem arm_peLag (b : Block) (r : PEResult) : (arm b r).peLag = BitVec.ofNat 32 r.lag := rfl
@[simp] theorem arm_peCorr (b : Block) (r : PEResult) : (arm b r).peCorr = BitVec.ofInt 64 r.corr := rfl
@[simp] theorem arm_peEnergy (b : Block) (r : PEResult) : (arm b r).peEnergy = BitVec.ofInt 64 r.energy := rfl
@[simp] theorem arm_err (b : Block) (r : PEResult) : (arm b r).err = b.err := rfl
@[simp] theorem arm_errCode (b : Block) (r : PEResult) : (arm b r).errCode = b.errCode := rfl
@[simp] theorem arm_pend (b : Block) (r : PEResult) : (arm b r).pend = b.pend := rfl

/-! ### push (R123) -/

@[simp] theorem push_hist (b : Block) (f : Nat → Sample) : (push b f).hist = shiftIn b.hist f := rfl
@[simp] theorem push_pbuf (b : Block) (f : Nat → Sample) : (push b f).pbuf = b.pbuf := rfl
@[simp] theorem push_lastq (b : Block) (f : Nat → Sample) : (push b f).lastq = b.lastq := rfl
@[simp] theorem push_fin (b : Block) (f : Nat → Sample) : (push b f).fin = b.fin := rfl
@[simp] theorem push_fout (b : Block) (f : Nat → Sample) : (push b f).fout = outputTap (shiftIn b.hist f) := rfl
@[simp] theorem push_eraseCnt (b : Block) (f : Nat → Sample) : (push b f).eraseCnt = b.eraseCnt := rfl
@[simp] theorem push_pitch (b : Block) (f : Nat → Sample) : (push b f).pitch = b.pitch := rfl
@[simp] theorem push_overlap (b : Block) (f : Nat → Sample) : (push b f).overlap = b.overlap := rfl
@[simp] theorem push_cycleLen (b : Block) (f : Nat → Sample) : (push b f).cycleLen = b.cycleLen := rfl
@[simp] theorem push_offset (b : Block) (f : Nat → Sample) : (push b f).offset = b.offset := rfl
@[simp] theorem push_pePitch (b : Block) (f : Nat → Sample) : (push b f).pePitch = b.pePitch := rfl
@[simp] theorem push_peCoarseLag (b : Block) (f : Nat → Sample) : (push b f).peCoarseLag = b.peCoarseLag := rfl
@[simp] theorem push_peLag (b : Block) (f : Nat → Sample) : (push b f).peLag = b.peLag := rfl
@[simp] theorem push_peCorr (b : Block) (f : Nat → Sample) : (push b f).peCorr = b.peCorr := rfl
@[simp] theorem push_peEnergy (b : Block) (f : Nat → Sample) : (push b f).peEnergy = b.peEnergy := rfl
@[simp] theorem push_err (b : Block) (f : Nat → Sample) : (push b f).err = b.err := rfl
@[simp] theorem push_errCode (b : Block) (f : Nat → Sample) : (push b f).errCode = b.errCode := rfl
@[simp] theorem push_pend (b : Block) (f : Nat → Sample) : (push b f).pend = b.pend := rfl

/-! ### extract (R103) -/

@[simp] theorem extract_hist (b : Block) (n : Nat) : ((extract b n).2).hist = b.hist := rfl
@[simp] theorem extract_pbuf (b : Block) (n : Nat) : ((extract b n).2).pbuf = b.pbuf := rfl
@[simp] theorem extract_lastq (b : Block) (n : Nat) : ((extract b n).2).lastq = b.lastq := rfl
@[simp] theorem extract_fin (b : Block) (n : Nat) : ((extract b n).2).fin = b.fin := rfl
@[simp] theorem extract_fout (b : Block) (n : Nat) : ((extract b n).2).fout = b.fout := rfl
@[simp] theorem extract_eraseCnt (b : Block) (n : Nat) : ((extract b n).2).eraseCnt = b.eraseCnt := rfl
@[simp] theorem extract_pitch (b : Block) (n : Nat) : ((extract b n).2).pitch = b.pitch := rfl
@[simp] theorem extract_overlap (b : Block) (n : Nat) : ((extract b n).2).overlap = b.overlap := rfl
@[simp] theorem extract_cycleLen (b : Block) (n : Nat) : ((extract b n).2).cycleLen = b.cycleLen := rfl
@[simp] theorem extract_offset (b : Block) (n : Nat) : ((extract b n).2).offset = advanceOffset b n := rfl
@[simp] theorem extract_pePitch (b : Block) (n : Nat) : ((extract b n).2).pePitch = b.pePitch := rfl
@[simp] theorem extract_peCoarseLag (b : Block) (n : Nat) : ((extract b n).2).peCoarseLag = b.peCoarseLag := rfl
@[simp] theorem extract_peLag (b : Block) (n : Nat) : ((extract b n).2).peLag = b.peLag := rfl
@[simp] theorem extract_peCorr (b : Block) (n : Nat) : ((extract b n).2).peCorr = b.peCorr := rfl
@[simp] theorem extract_peEnergy (b : Block) (n : Nat) : ((extract b n).2).peEnergy = b.peEnergy := rfl
@[simp] theorem extract_err (b : Block) (n : Nat) : ((extract b n).2).err = b.err := rfl
@[simp] theorem extract_errCode (b : Block) (n : Nat) : ((extract b n).2).errCode = b.errCode := rfl
@[simp] theorem extract_pend (b : Block) (n : Nat) : ((extract b n).2).pend = b.pend := rfl

@[simp] theorem extract_fst (b : Block) (n : Nat) : (extract b n).1 = extractAt b := rfl
@[simp] theorem peek_fst (b : Block) (n : Nat) : (peek b n).1 = extractAt b := rfl
@[simp] theorem peek_snd (b : Block) (n : Nat) : (peek b n).2 = b := rfl
@[simp] theorem mute_fst (b : Block) : (mute b).1 = fun _ => 0 := rfl
@[simp] theorem mute_snd (b : Block) : (mute b).2 = b := rfl
@[simp] theorem softReset_eq (b : Block) : softReset b = Block.reset := rfl

/-! ### The state around the block -/

@[simp] theorem withBlk_blk (s : State) (b : Block) : (s.withBlk b).blk = b := rfl
@[simp] theorem withBlk_turns (s : State) (b : Block) : (s.withBlk b).turns = s.turns := rfl
@[simp] theorem withBlk_rdata (s : State) (b : Block) : (s.withBlk b).rdata = s.rdata := rfl
@[simp] theorem withBlk_draws (s : State) (b : Block) : (s.withBlk b).draws = s.draws := rfl
@[simp] theorem popTurn_blk (s : State) : s.popTurn.blk = s.blk := rfl
@[simp] theorem popTurn_turns (s : State) : s.popTurn.turns = s.turns.tail := rfl
@[simp] theorem popTurn_rdata (s : State) : s.popTurn.rdata = s.rdata := rfl
@[simp] theorem popTurn_draws (s : State) : s.popTurn.draws = s.draws := rfl
@[simp] theorem retire_blk (s : State) : s.retire.blk = { s.blk with pend := none } := rfl
@[simp] theorem retire_turns (s : State) : s.retire.turns = s.turns.tail := rfl
@[simp] theorem retire_rdata (s : State) : s.retire.rdata = s.rdata := rfl
@[simp] theorem retire_draws (s : State) : s.retire.draws = s.draws := rfl
@[simp] theorem withBlk_inReset (s : State) (b : Block) : (s.withBlk b).inReset = s.inReset := rfl
@[simp] theorem popTurn_inReset (s : State) : s.popTurn.inReset = s.inReset := rfl
@[simp] theorem retire_inReset (s : State) : s.retire.inReset = s.inReset := rfl

end Sys2Proof.Machine
end

