-- ==== Sys2Proof/Laws/Bus.lean ====
section
/-! SUPPORT. What a bus access can do, said once: the cases of MemRead (R52), MemWrite (R53), accept (R74) and
validate (R75). -/

namespace Sys2Proof.Machine

/-! ### The error record (R134) -/

theorem raiseError_of_clear {b : Block} (h : b.err = false) (c : ErrCode) :
    raiseError b c = { b with err := true, errCode := c } := by
  rw [raiseError, h]; rfl

theorem raiseError_of_set {b : Block} (h : b.err = true) (c : ErrCode) : raiseError b c = b := by
  rw [raiseError, h]; rfl

/-! ### accept (R74) -/

/-- Acceptance records one error or sets `PEND`, and does nothing else. -/
theorem accept_cases (b : Block) (w : Word) :
    (∃ c, validate b w = some c ∧ accept b w = raiseError b c)
      ∨ (validate b w = none ∧ accept b w = { b with pend := some w }) := by
  unfold accept
  cases h : validate b w with
  | none => exact Or.inr ⟨rfl, rfl⟩
  | some c => exact Or.inl ⟨c, rfl, rfl⟩

/-- A word that passes validation is one of the five (R75 check 1). -/
theorem decode_of_validate_none {b : Block} {w : Word} (h : validate b w = none) : ∃ i, decode w = .ok i := by
  unfold validate at h
  cases hd : decode w with
  | error r => rw [hd] at h; cases h
  | ok i => exact ⟨i, rfl⟩

/-- Validation reads `ERASE_CNT`, `PITCH`, `OVERLAP`, `CYCLE_LEN` and `OFFSET` of the state, and nothing else (R75). -/
theorem validate_congr {b b' : Block} (h1 : b'.eraseCnt = b.eraseCnt) (h2 : b'.pitch = b.pitch)
    (h3 : b'.overlap = b.overlap) (h4 : b'.cycleLen = b.cycleLen) (h5 : b'.offset = b.offset) (w : Word) :
    validate b' w = validate b w := by
  unfold validate Block.Cons
  rw [h1, h2, h3, h4, h5]

/-! ### MemWrite (R53) -/

/-- Everything a write can do: record an error, reset, clear the error record, set `PEND`, write one element of a
host-writable memory, or nothing. -/
theorem memWrite_cases (b : Block) (a : BusAddr) (w : Word) :
    (∃ c, memWrite b a w = raiseError b c)
      ∨ (decodeAddr a = .reg .ctrl ∧ w.getLsbD 0 = true ∧ memWrite b a w = Block.reset)
      ∨ (decodeAddr a = .reg .status ∧ w.getLsbD 1 = true ∧ memWrite b a w = clearError b)
      ∨ (b.busy = false ∧ decodeAddr a = .reg .cmd ∧ validate b w = none
          ∧ memWrite b a w = { b with pend := some w })
      ∨ (∃ g k, b.busy = false ∧ decodeAddr a = .elem g k ∧ g ≠ .fout
          ∧ (g.frozenInBurst = true → b.eraseCnt = 0) ∧ legalSampleWord w = true
          ∧ memWrite b a w = b.withMem g ((b.mem g).set k (sampleOfWord w)))
      ∨ memWrite b a w = b := by
  unfold memWrite
  split
  · exact Or.inl ⟨_, rfl⟩
  · rename_i h
    split
    · exact Or.inr (Or.inl ⟨h, ‹_›, rfl⟩)
    · simp
  · rename_i h
    split
    · exact Or.inr (Or.inr (Or.inl ⟨h, ‹_›, rfl⟩))
    · simp
  · split
    · exact Or.inl ⟨_, rfl⟩
    · rename_i hb
      have hb : b.busy = false := by simpa using hb
      unfold idleWrite
      split
      · simp
      · rename_i h
        rcases accept_cases b w with ⟨c, _, hc⟩ | ⟨hv, hc⟩
        · exact Or.inl ⟨c, hc⟩
        · exact Or.inr (Or.inr (Or.inr (Or.inl ⟨hb, h, hv, hc⟩)))
      · simp
      · simp
      · rename_i g k hne h
        split
        · exact Or.inl ⟨_, rfl⟩
        · rename_i hf
          unfold storeSample
          split
          · rename_i hl
            refine Or.inr (Or.inr (Or.inr (Or.inr (Or.inl ⟨g, k, hb, h, ?_, ?_, hl, rfl⟩))))
            · intro hg
              subst hg
              exact hne rfl
            · intro hg
              simpa [hg] using hf
          · exact Or.inl ⟨_, rfl⟩

/-! ### MemRead (R52) -/

/-- A read changes the block only by recording `ADDR` at an unmapped address. -/
theorem memRead_blk (s : State) (a : BusAddr) :
    (memRead s a).blk = if decodeAddr a = .unmapped then raiseError s.blk .addr else s.blk := by
  unfold memRead
  dsimp only
  split <;> rfl

@[simp] theorem memRead_turns (s : State) (a : BusAddr) : (memRead s a).turns = s.turns := by
  unfold memRead
  dsimp only
  split <;> rfl

@[simp] theorem memRead_inReset (s : State) (a : BusAddr) : (memRead s a).inReset = s.inReset := by
  unfold memRead
  dsimp only
  split <;> rfl

/-! ### The reset input (R147) -/

@[simp] theorem assertReset_blk (s : State) : (assertReset s).blk = Block.reset := rfl
@[simp] theorem assertReset_turns (s : State) : (assertReset s).turns = s.turns := rfl
@[simp] theorem assertReset_rdata (s : State) : (assertReset s).rdata = s.rdata := rfl
@[simp] theorem assertReset_draws (s : State) : (assertReset s).draws = s.draws := rfl
@[simp] theorem assertReset_inReset (s : State) : (assertReset s).inReset = true := rfl

/-- Whatever turn comes while the reset input is asserted, every field of the block has its reset value after it. -/
@[simp] theorem heldTurn_blk (s : State) (u : Turn) : (heldTurn s u).blk = Block.reset := by cases u <;> rfl
@[simp] theorem heldTurn_turns (s : State) (u : Turn) : (heldTurn s u).turns = s.turns := by cases u <;> rfl
@[simp] theorem heldTurn_draws (s : State) (u : Turn) : (heldTurn s u).draws = s.draws := by cases u <;> rfl

/-- The reset input stays asserted until it is released. -/
theorem heldTurn_inReset (s : State) (u : Turn) :
    (heldTurn s u).inReset = (s.inReset && decide (u ≠ .release)) := by
  cases u <;> simp [heldTurn]

/-! ### Address decoding (R50) -/

/-- The elements an address can decode to lie inside their memory. -/
theorem decodeAddr_elem_lt {a : BusAddr} {g : Region} {k : Nat} (h : decodeAddr a = .elem g k) : k < g.len := by
  unfold decodeAddr at h
  split at h
  · cases h
  · split at h
    · cases h
    · split at h
      · rename_i g' hg
        cases h
        have := List.find?_some hg
        simp only [Region.holds, Bool.and_eq_true, decide_eq_true_eq] at this
        cases g <;> simp only [Region.base, Region.len, Config.FIN_BASE, Config.FOUT_BASE, Config.HIST_BASE,
          Config.PBUF_BASE, Config.LASTQ_BASE, Config.FRAME_SIZE, Config.HISTORY_LEN, Config.OVERLAP_MAX] at * <;> omega
      · cases h

end Sys2Proof.Machine
end

