-- ==== Sys2Proof/Laws/Pitch.lean ====
section
/-! SUPPORT. The laws of the pitch estimator: where the winners lie, and how large the sums can be (R98). -/

namespace Sys2Proof.Machine

/-- The scan returns a candidate it has visited. -/
theorem selectFrom_mem (score : Nat → Score) (best : Nat) (js : List Nat) :
    selectFrom score best js = best ∨ selectFrom score best js ∈ js := by
  induction js generalizing best with
  | nil => exact Or.inl rfl
  | cons j js ih =>
    unfold selectFrom
    split
    · rcases ih j with h | h
      · right; rw [h]; simp
      · right; simp [h]
    · rcases ih best with h | h
      · exact Or.inl h
      · right; simp [h]

/-- A stage's winner is one of its candidates. -/
theorem select_mem (score : Nat → Score) {js : List Nat} (h : js ≠ []) : select score js ∈ js := by
  cases js with
  | nil => exact absurd rfl h
  | cons j js =>
    rcases selectFrom_mem score j js with h | h
    · simp only [select, h]; simp
    · simp only [select]; simp [h]

theorem mem_coarseLags {j : Nat} : j ∈ coarseLags ↔ j % 2 = 0 ∧ j ≤ 80 := by
  simp only [coarseLags, List.mem_map, List.mem_range, Config.COARSE_COUNT, Config.PITCH_DIFF, Config.PITCH_MAX,
    Config.PITCH_MIN, Config.NDEC]
  constructor
  · rintro ⟨a, ha, rfl⟩; omega
  · rintro ⟨h1, h2⟩; exact ⟨j / 2, by omega, by omega⟩

theorem mem_fineLags {c j : Nat} : j ∈ fineLags c ↔ c - 1 ≤ j ∧ j ≤ 80 ∧ j ≤ c + 1 := by
  simp only [fineLags, List.mem_range'_1, Config.PITCH_DIFF, Config.PITCH_MAX, Config.PITCH_MIN, Config.NDEC]
  omega

theorem pe_coarse_eq (x : Nat → Int) : (pe x).coarse = select (coarseScore x) coarseLags := by simp only [pe]

theorem pe_lag_eq (x : Nat → Int) : (pe x).lag = select (fineScore x) (fineLags (pe x).coarse) := by simp only [pe]

theorem pe_pitch_eq (x : Nat → Int) : (pe x).pitch = 120 - (pe x).lag := by simp only [pe, Config.PITCH_MAX]

theorem pe_corr_eq (x : Nat → Int) : (pe x).corr = fineCorr x (pe x).lag := by simp only [pe]

theorem pe_energy_eq (x : Nat → Int) : (pe x).energy = fineEnergy x (pe x).lag := by simp only [pe]

/-- The coarse winner is even and at most 80 (R92). -/
theorem pe_coarse_range (x : Nat → Int) : (pe x).coarse % 2 = 0 ∧ (pe x).coarse ≤ 80 := by
  rw [pe_coarse_eq]
  refine mem_coarseLags.mp (select_mem _ fun h => ?_)
  have h0 : 0 ∈ coarseLags := mem_coarseLags.mpr ⟨rfl, by omega⟩
  rw [h] at h0
  simp at h0

/-- The fine winner lies next to the coarse one and at most at 80 (R93, R95). -/
theorem pe_lag_range (x : Nat → Int) :
    (pe x).coarse - 1 ≤ (pe x).lag ∧ (pe x).lag ≤ 80 ∧ (pe x).lag ≤ (pe x).coarse + 1 := by
  have hc := (pe_coarse_range x).2
  rw [pe_lag_eq]
  refine mem_fineLags.mp (select_mem _ fun h => ?_)
  have h0 : (pe x).coarse ∈ fineLags (pe x).coarse := mem_fineLags.mpr (by omega)
  rw [h] at h0
  simp at h0

/-- PE reads the Pitch Buffer at indices below 390 only. -/
theorem fineCorr_congr {x y : Nat → Int} (h : ∀ k < 390, x k = y k) {j : Nat} (hj : j ≤ 80) :
    fineCorr x j = fineCorr y j :=
  sumTo_congr fun k hk => by
    simp only [Config.CORR_LEN] at hk
    rw [h _ (by simp; omega), h _ (by simp; omega)]

/-- The correlation of 16-bit samples needs at most 39 bits (R98). -/
theorem fineCorr_bounds {x : Nat → Int} (hx : ∀ k, -32768 ≤ x k ∧ x k ≤ 32767) (j : Nat) :
    -171798691840 ≤ fineCorr x j ∧ fineCorr x j ≤ 171798691840 := by
  have h := sumTo_bounds (n := Config.CORR_LEN) (lo := -1073741824) (hi := 1073741824)
    (f := fun i => x (candStart + j + i) * x (targetStart + i)) fun k _ => by
      have h1 := hx (candStart + j + k)
      have h2 := hx (targetStart + k)
      constructor <;> nlinarith
  simp only [Config.CORR_LEN] at h
  unfold fineCorr
  simp only [Config.CORR_LEN]
  omega

/-- The energy of 16-bit samples needs at most 38 bits (R98). -/
theorem fineEnergy_bounds {x : Nat → Int} (hx : ∀ k, -32768 ≤ x k ∧ x k ≤ 32767) (j : Nat) :
    0 ≤ fineEnergy x j ∧ fineEnergy x j ≤ 171798691840 := by
  have h := sumTo_bounds (n := Config.CORR_LEN) (lo := 0) (hi := 1073741824)
    (f := fun i => x (candStart + j + i) ^ 2) fun k _ => by
      have h1 := hx (candStart + j + k)
      constructor <;> nlinarith
  simp only [Config.CORR_LEN] at h
  unfold fineEnergy
  simp only [Config.CORR_LEN]
  omega

end Sys2Proof.Machine
end

