-- ==== Sys2Proof/Laws/Engine.lean ====
section
/-! SUPPORT. What each shared operation of the engine does, said once: EXTRACT, PUSH, the self-stitch, the tail
capture, and the regimes' case split. -/

namespace Sys2Proof.Machine

-- The estimator's result is never computed in a general proof: its laws (Laws/Pitch.lean) are cited.
seal pe

/-! ### The engine's contract -/

/-- `cons` gives EXTRACT's contract. -/
theorem Block.Cons.cursorOk {b : Block} (h : b.Cons) : b.CursorOk := by
  obtain ⟨_, h2, _, h4, h5⟩ := h
  refine ⟨h5, ?_⟩
  have : min b.eraseCnt.toNat 3 ≤ 3 := Nat.min_le_right _ _
  have := Nat.mul_le_mul h2 this
  simp only [Config.PITCH_MAX, Config.HISTORY_LEN] at *
  omega

/-- `cons` gives the self-stitch's index bounds (R113, R114). -/
theorem Block.Cons.stitchOk {b : Block} (h : b.Cons) : b.StitchOk := by
  obtain ⟨_, h2, h3, h4, _⟩ := h
  have : min b.eraseCnt.toNat 3 ≤ 3 := Nat.min_le_right _ _
  have := Nat.mul_le_mul h2 this
  rw [Nat.shiftRight_eq_div_pow] at h3
  simp only [Block.StitchOk, Config.PITCH_MAX, Config.HISTORY_LEN, Config.OVERLAP_MAX] at *
  omega

/-! ### EXTRACT (R103) -/

theorem extractAt_of_ok {b : Block} (h : b.CursorOk) (k : Nat) :
    extractAt b k = b.pbufAt (390 - b.cycleLen.toNat + (b.offset.toNat + k) % b.cycleLen.toNat) := by
  rw [extractAt, if_pos h, Config.HISTORY_LEN]

theorem advanceOffset_of_ok {b : Block} (h : b.CursorOk) (n : Nat) :
    (advanceOffset b n).toNat = (b.offset.toNat + n) % b.cycleLen.toNat := by
  rw [advanceOffset, if_pos h, BitVec.toNat_ofNat]
  refine Nat.mod_eq_of_lt ((Nat.mod_lt _ (by have := h.1; omega)).trans_le ?_)
  have := h.2
  simp only [Config.HISTORY_LEN] at this
  omega

/-- The index EXTRACT reads lies in the cycle window, inside the Pitch Buffer. -/
theorem extract_index_lt {b : Block} (h : b.CursorOk) (k : Nat) :
    390 - b.cycleLen.toNat + (b.offset.toNat + k) % b.cycleLen.toNat < 390 := by
  have h1 := h.1
  have h2 := h.2
  have := Nat.mod_lt (b.offset.toNat + k) (show 0 < b.cycleLen.toNat by omega)
  simp only [Config.HISTORY_LEN] at h2
  omega

/-! ### PUSH (R123, R124) -/

@[simp] theorem shiftIn_get (h : Memory) (f : Nat → Sample) (k : Nat) :
    (shiftIn h f).get k = if k < 390 then (if k < 310 then h.get (k + 80) else f (k - 310)) else 0 := by
  simp [shiftIn]

@[simp] theorem outputTap_get (h : Memory) (i : Nat) :
    (outputTap h).get i = if i < 80 then h.get (280 + i) else 0 := by
  simp [outputTap]

theorem shiftIn_wf (h : Memory) (f : Nat → Sample) : (shiftIn h f).wf 390 = true := Memory.wf_build _ _

theorem outputTap_wf (h : Memory) : (outputTap h).wf 80 = true := Memory.wf_build _ _

/-! ### The self-stitch (R113) and the tail capture (R112) -/

@[simp] theorem stitchedPbuf_get (b : Block) (k : Nat) :
    (stitchedPbuf b).get k
      = if k < 390 then
          (if k < 390 - b.overlap.toNat then b.pbuf.get k else stitchedAt b (k - (390 - b.overlap.toNat)))
        else 0 := by
  simp [stitchedPbuf]

theorem stitchedAt_of_ok {b : Block} (h : b.StitchOk) (i : Nat) :
    stitchedAt b i
      = toSample (blend b.lastqAt (fun k => b.pbufAt (390 - b.cycleLen.toNat - b.overlap.toNat + k))
          b.overlap.toNat i) := by
  rw [stitchedAt, if_pos h, Config.HISTORY_LEN]

@[simp] theorem capturedLastq_get (b : Block) (k : Nat) :
    (capturedLastq b).get k
      = if k < 30 then (if k < b.overlap.toNat then b.pbuf.get (390 - b.overlap.toNat + k) else 0) else 0 := by
  simp [capturedLastq]

theorem stitchedPbuf_wf (b : Block) : (stitchedPbuf b).wf 390 = true := Memory.wf_build _ _

theorem capturedLastq_wf (b : Block) : (capturedLastq b).wf 30 = true := Memory.wf_build _ _

/-! ### The regimes (R111) -/

/-- Burst start estimates the pitch of `HIST`, arms the burst on that snapshot, stitches and extracts (R112). -/
theorem burstStart_eq (b : Block) :
    burstStart b = extract (stitch (arm { b with pbuf := b.hist } (pe b.hist.at))) 80 := rfl

theorem synthesize_zero (b : Block) : synthesize b 0 = burstStart b := rfl

theorem synthesize_short (b : Block) {e : Nat} (h1 : 1 ≤ e) (h2 : e ≤ 2) : synthesize b e = shortExtension b e := by
  rw [synthesize, if_neg (by omega), if_pos (by simpa using h2)]

theorem synthesize_steady (b : Block) {e : Nat} (h1 : 3 ≤ e) (h2 : e ≤ 5) : synthesize b e = steadyRepeat b e := by
  rw [synthesize, if_neg (by omega), if_neg (by simp; omega), if_pos (by simpa using h2)]

theorem synthesize_mute (b : Block) {e : Nat} (h : 6 ≤ e) : synthesize b e = mute b := by
  rw [synthesize, if_neg (by omega), if_neg (by simp; omega), if_neg (by simp; omega)]

/-- Whatever the regime, FRAME_LOST is the regime, the count and the push (R111). -/
theorem frameLost_eq (b : Block) :
    frameLost b
      = push { (synthesize b b.eraseCnt.toNat).2 with eraseCnt := sat32 (b.eraseCnt.toNat + 1) }
          (fun i => toSample ((synthesize b b.eraseCnt.toNat).1 i)) := rfl

/-- What no regime touches. -/
theorem synthesize_frame (b : Block) (e : Nat) :
    (synthesize b e).2.hist = b.hist ∧ (synthesize b e).2.fin = b.fin ∧ (synthesize b e).2.fout = b.fout
      ∧ (synthesize b e).2.eraseCnt = b.eraseCnt ∧ (synthesize b e).2.err = b.err
      ∧ (synthesize b e).2.errCode = b.errCode ∧ (synthesize b e).2.pend = b.pend := by
  unfold synthesize
  split
  · exact ⟨rfl, rfl, rfl, rfl, rfl, rfl, rfl⟩
  · split
    · exact ⟨rfl, rfl, rfl, rfl, rfl, rfl, rfl⟩
    · split
      · exact ⟨rfl, rfl, rfl, rfl, rfl, rfl, rfl⟩
      · exact ⟨rfl, rfl, rfl, rfl, rfl, rfl, rfl⟩

/-- FRAME_GOOD between bursts is the push of FIN (R119). -/
theorem frameGood_of_idle {b : Block} (h : b.eraseCnt.toNat = 0) : frameGood b = push b b.fin.get := by
  rw [frameGood]
  simp [h]

/-- FRAME_GOOD out of a burst (R119). -/
theorem frameGood_of_burst {b : Block} (h : b.eraseCnt.toNat ≠ 0) :
    frameGood b
      = push { b with
            offset := advanceOffset b (recoveryLen b.overlap.toNat b.eraseCnt.toNat), eraseCnt := 0 }
          (fun i =>
            if i < recoveryLen b.overlap.toNat b.eraseCnt.toNat then
              toSample (blendEnd b.finAt (extractAt b) (recoveryLen b.overlap.toNat b.eraseCnt.toNat)
                b.eraseCnt.toNat i)
            else b.fin.get i) := by
  rw [frameGood]
  simp only [if_neg h]
  rfl

theorem sat32_toNat (v : Nat) : (sat32 v).toNat = min v 4294967295 := by
  rw [sat32, BitVec.toNat_ofNat]
  exact Nat.mod_eq_of_lt (by omega)

/-- Below its last value the counter counts (R117). -/
theorem sat32_of_lt {v : Nat} (h : v < 2 ^ 32) : sat32 v = BitVec.ofNat 32 v := by
  rw [sat32, Nat.min_eq_left (Nat.le_of_lt_succ h)]

/-- FRAME_GOOD's window (R119). -/
theorem recoveryLen_eq (ov e : Nat) : recoveryLen ov e = min 80 (ov + (e - 1) * 32) := rfl

end Sys2Proof.Machine
end

