-- ==== Sys2Proof/Machine/FrameDriver.lean ====
section
/-! DEFINITION. The Frame Driver, a host procedure (47_frame_driver.md). It is not hardware (R5): nothing of the block
calls it, and it reaches the block by bus turns only. -/

namespace Sys2Proof.Machine

/-- How the host procedure ends, with the machine it leaves. -/
inductive Concealed where
  /-- A contract error (R128): a failed precheck, or `STATUS.ERR = 1` after a frame. -/
  | contractError (s : State)
  /-- A read was not answered, as the reset input is asserted (R147), or the machine stopped, which no run whose `PEND`
  acceptance set does (R137). R129 says nothing of either: the model's choice (log entry 11). -/
  | stopped
  /-- The trimmed stream of samples (R130). -/
  | done (s : State) (z : List Sample)
deriving DecidableEq, Repr

/-- The words a turn hands to the host, none where it is a read that was not answered. -/
def wordsOf (rdata : Option Word) : Turn → Option (List Word)
  | .read _ => rdata.map fun w => [w]
  | .engine => some []
  | .write _ _ => some []
  | .reset => some []
  | .release => some []

/-- Turns issued one at a time: the machine after them and the words read, in order; none where the machine stops or
does not answer a read. -/
def issueTurns : List Turn → State → Option (State × List Word)
  | [], s => some (s, [])
  | t :: ts, s =>
    match step { s with turns := [t] } with
    | .next s' =>
      (wordsOf s'.rdata t).bind fun got => (issueTurns ts s').map fun r => (r.1, got ++ r.2)
    | .fault _ => none
    | .refused _ => none

/-- The value the driver loads for a sample of `x`: the sample itself, brought into the two's-complement range of a bus
word where it lies outside. Every value outside the Int16 range so becomes a word that is no sample word, and the load
fails with `RANGE`, as R128 says of every such sample; `u32` alone would turn 2^32 into the legal word 0. Which illegal
word stands for a value that no word holds is the model's choice (log entry 12). -/
def driverSample (v : Int) : Int := max (-0x80000000) (min v 0x7FFFFFFF)

/-- The turns that give the block one frame (R129): a lost frame writes no `FIN`. -/
def frameTurns (f : List Int) (lost : Bool) (polls : Nat) : List Turn :=
  if lost then execCmd .frameLost polls else ldfin (f.map driverSample) ++ execCmd .frameGood polls

/-- How one frame of the loop ends. -/
inductive FrameEnd where
  | contractError (s : State)
  | stopped
  | output (s : State) (f : List Sample)
deriving DecidableEq, Repr

/-- The last two lines of the loop's body (R129): `STATUS` is read and tested, and only a frame without an error is read
out, each word as `s16` (R72). -/
def collectFrame (s : State) : FrameEnd :=
  match issueTurns [.read Reg.status.addr] s with
  | none => .stopped
  | some (s₁, t) =>
    if t.any (fun w => w.getLsbD 1) then .contractError s₁
    else match issueTurns rdfout s₁ with
      | none => .stopped
      | some (s₂, f) => .output s₂ (f.map sampleOfWord)

/-- The body of the loop for one frame (R129). -/
def driveFrame (polls : Nat) (x : List Int) (lost : Bool) (s : State) : FrameEnd :=
  match issueTurns (frameTurns x lost polls) s with
  | none => .stopped
  | some (s₁, _) => collectFrame s₁

/-- The per-frame loop (R129) on the samples and the labels still to come, `true` a lost frame, with the output samples
collected so far; then the trim (R130). On no frame at all, N = 0, R128's precheck passes and R130's range [30, 0) and
length −30 are undefined: the empty stream returned there is the model's choice (log entry 13). -/
def driveFrames (polls : Nat) : List Bool → List Int → List Sample → State → Concealed
  | [], _, y, s => .done s (y.drop Config.OVERLAP_MAX)
  | lost :: labels, x, y, s =>
    match driveFrame polls (x.take Config.FRAME_SIZE) lost s with
    | .contractError s' => .contractError s'
    | .stopped => .stopped
    | .output s' f => driveFrames polls labels (x.drop Config.FRAME_SIZE) (y ++ f) s'

/-- `conceal(x, labels)` (R128, R129, R130): a failed precheck gives the block no command; `fresh` is the optional
`srst`; the first 30 output samples are dropped. -/
def conceal (x : List Int) (labels : List Bool) (fresh : Bool) (polls : Nat) (s : State) : Concealed :=
  if x.length = labels.length * Config.FRAME_SIZE then
    match issueTurns (if fresh then srst else []) s with
    | none => .stopped
    | some (s₁, _) => driveFrames polls labels x [] s₁
  else .contractError s

end Sys2Proof.Machine
end

