-- ==== Sys2Proof/Laws/FrameDriver.lean ====
section
/-! SUPPORT. The Frame Driver's loads (R128). -/

namespace Sys2Proof.Machine

/-- A sample of the Int16 range is loaded as itself. -/
theorem driverSample_of_range {v : Int} (h1 : -32768 ≤ v) (h2 : v ≤ 32767) : driverSample v = v := by
  unfold driverSample; omega

/-- Every other sample is loaded as a word that is refused with `RANGE` (R51, R128). -/
theorem legalSampleWord_driverSample_of_not_range {v : Int} (h : v < -32768 ∨ 32767 < v) :
    legalSampleWord (BitVec.ofInt 32 (driverSample v)) = false := by
  have hr : driverSample v < -32768 ∧ -0x80000000 ≤ driverSample v
      ∨ 32767 < driverSample v ∧ driverSample v ≤ 0x7FFFFFFF := by
    unfold driverSample; omega
  generalize driverSample v = u at hr
  have hn : ((BitVec.ofInt 32 u).toNat : Int) = u % 2 ^ 32 := by
    rw [BitVec.toNat_ofInt]; omega
  have hlow : ¬ (BitVec.ofInt 32 u).extractLsb' 15 17 = 0 := by
    rw [← BitVec.toNat_inj, BitVec.extractLsb'_toNat, Nat.shiftRight_eq_div_pow]
    simp only [BitVec.toNat_zero, BitVec.ofNat_eq_ofNat]
    omega
  have hhigh : ¬ (BitVec.ofInt 32 u).extractLsb' 15 17 = BitVec.allOnes 17 := by
    rw [← BitVec.toNat_inj, BitVec.extractLsb'_toNat, Nat.shiftRight_eq_div_pow, BitVec.toNat_allOnes]
    omega
  simp only [legalSampleWord, Bool.or_eq_false_iff, beq_eq_false_iff_ne]
  exact ⟨hlow, hhigh⟩

end Sys2Proof.Machine
end

