-- ==== Sys2Proof/Laws/PerInstr.lean ====
section
/-! SUPPORT. Families of statements made per instruction, one lemma per constructor of `Instr`. -/

namespace Sys2Proof.Laws

/-- The word of a command has the fields R68 gives it, and they pass the checks of format C (R66, R69). -/
def WordFields.Statement (i : Instr) : Prop := formatOf (encode i) = i.format ∧ i.wf = true

theorem WordFields.nop : WordFields.Statement .nop := by unfold WordFields.Statement; decide
theorem WordFields.frameGood : WordFields.Statement .frameGood := by unfold WordFields.Statement; decide
theorem WordFields.frameLost : WordFields.Statement .frameLost := by unfold WordFields.Statement; decide
theorem WordFields.peRun : WordFields.Statement .peRun := by unfold WordFields.Statement; decide
theorem WordFields.snap : WordFields.Statement .snap := by unfold WordFields.Statement; decide

end Sys2Proof.Laws
end

