-- ==== Sys2Proof/Laws/Platform.lean ====
section
/-! SUPPORT. What an access and a step do to a platform (R144). -/

namespace Sys2Proof.Machine

@[simp] theorem give_base (x : Engine) (a : Nat) (mk : BusAddr → Turn) : (x.give a mk).base = x.base := rfl

@[simp] theorem give_blk (x : Engine) (a : Nat) (mk : BusAddr → Turn) : (x.give a mk).st.blk = x.st.blk := rfl

@[simp] theorem reset_bases (bases : List Nat) : (Platform.reset bases).map Engine.base = bases := by
  simp [Platform.reset, Function.comp_def]

/-- Whether the windows are apart is a fact about their bases alone. -/
theorem platform_wf_congr {p q : Platform} (h : p.map Engine.base = q.map Engine.base) : p.Wf ↔ q.Wf := by
  have key : ∀ r : Platform, r.Wf ↔ (r.map Engine.base).Pairwise
      (fun a b => a + Config.WINDOW_BYTES ≤ b ∨ b + Config.WINDOW_BYTES ≤ a) := fun r => by
    rw [List.pairwise_map]
  rw [key, key, h]

/-- An access moves no window. -/
@[simp] theorem issue_bases (p : Platform) (a : Nat) (mk : BusAddr → Turn) :
    (p.issue a mk).map Engine.base = p.map Engine.base := by
  induction p with
  | nil => rfl
  | cons x p ih =>
    unfold Platform.issue
    split
    · rfl
    · rw [List.map_cons, ih, List.map_cons]

/-- A step moves no window. -/
theorem stepAt_bases {p q : Platform} {k : Nat} (h : p.stepAt k = .next q) :
    q.map Engine.base = p.map Engine.base := by
  unfold Platform.stepAt at h
  cases hx : p[k]? with
  | none => rw [hx] at h; cases h; rfl
  | some x =>
    simp only [hx] at h
    cases ht : step x.st with
    | next t =>
      rw [ht] at h
      cases h
      obtain ⟨hk, rfl⟩ := List.getElem?_eq_some_iff.mp hx
      rw [List.map_set, ← List.getElem_map (l := p) Engine.base (h := by simpa using hk)]
      exact List.set_getElem_self _
    | fault r => rw [ht] at h; cases h
    | refused r => rw [ht] at h; cases h

end Sys2Proof.Machine
end

