-- ==== Sys2Proof/Laws/Step.lean ====
section
/-! SUPPORT. What a step can do, said once: every invariant is derived from `step_cases`. -/

namespace Sys2Proof.Machine

/-- The engine's step at a pending command, whatever `Exec` answers. -/
theorem engineTurn_pend {s : State} {w : Word} {i : Instr} (hp : s.blk.pend = some w) (hd : decode w = .ok i) :
    engineTurn s =
      match exec i s with
      | .next s' => .next s'.retire
      | .fault r => .fault r
      | .refused r => .refused r := by
  cases h : exec i s <;> simp only [engineTurn, fetchCommand, hp, Option.map_some, hd, h]

/-- The engine's step with nothing pending. -/
theorem engineTurn_idle {s : State} (hp : s.blk.pend = none) : engineTurn s = .next s.popTurn := by
  unfold engineTurn fetchCommand
  rw [hp]
  rfl

/-- While the reset input is asserted, every step is a held turn (R147). -/
theorem step_inReset {s : State} (h : s.inReset = true) : step s = .next (heldTurn s s.headTurn).popTurn := by
  unfold step
  rw [if_pos h]

/-- The engine moves next when no turn is listed, or its own. -/
theorem engineNext_iff (s : State) :
    s.engineNext = true ↔ s.inReset = false ∧ (s.turns = [] ∨ ∃ ts, s.turns = .engine :: ts) := by
  unfold State.engineNext State.headTurn
  cases s.turns with
  | nil => simp
  | cons u ts => cases u <;> simp

/-- A step at the engine's turn is the engine's step. -/
theorem step_engineNext {s : State} (h : s.engineNext = true) : step s = engineTurn s := by
  obtain ⟨hr, hts⟩ := (engineNext_iff s).mp h
  unfold step
  rw [if_neg (by simp [hr])]
  obtain hts | ⟨ts, hts⟩ := hts <;> rw [hts]

/-- The block each command leaves. -/
def execBlk : Instr → Block → Block
  | .nop, b => b
  | .frameGood, b => frameGood b
  | .frameLost, b => frameLost b
  | .peRun, b => writePE b (pe b.pbufAt)
  | .snap, b => { b with pbuf := b.hist }

/-- Every command completes: `Exec` is total and raises no error (R76). It changes the block only. -/
theorem exec_eq (i : Instr) (s : State) : exec i s = .next (s.withBlk (execBlk i s.blk)) := by
  cases i <;> rfl

/-- If the engine's step answers a next state, nothing was pending or a command completed. -/
theorem engineTurn_cases {s t : State} (h : engineTurn s = .next t) :
    (s.blk.pend = none ∧ t = s.popTurn)
      ∨ ∃ w i, s.blk.pend = some w ∧ decode w = .ok i ∧ t = (s.withBlk (execBlk i s.blk)).retire := by
  cases hp : s.blk.pend with
  | none =>
    rw [engineTurn_idle hp] at h
    cases h
    exact Or.inl ⟨rfl, rfl⟩
  | some w =>
    cases hd : decode w with
    | error r =>
      unfold engineTurn fetchCommand at h
      simp [hp, hd] at h
    | ok i =>
      rw [engineTurn_pend hp hd, exec_eq] at h
      cases h
      exact Or.inr ⟨w, i, rfl, hd, rfl⟩

/-- If a step answers a next state, it was a turn under reset, the engine's with nothing pending, the engine's completion
of a command, a read, a write, or the reset input's assertion or release. -/
theorem step_cases {s t : State} (h : step s = .next t) :
    (s.inReset = true ∧ t = (heldTurn s s.headTurn).popTurn)
      ∨ (s.engineNext = true ∧ s.blk.pend = none ∧ t = s.popTurn)
      ∨ (∃ w i, s.engineNext = true ∧ s.blk.pend = some w ∧ decode w = .ok i
          ∧ t = (s.withBlk (execBlk i s.blk)).retire)
      ∨ (∃ a ts, s.inReset = false ∧ s.turns = .read a :: ts ∧ t = (memRead s a).popTurn)
      ∨ (∃ a w ts, s.inReset = false ∧ s.turns = .write a w :: ts
          ∧ t = (s.withBlk (memWrite s.blk a w)).popTurn)
      ∨ (∃ ts, s.inReset = false ∧ s.turns = .reset :: ts ∧ t = (assertReset s).popTurn)
      ∨ (∃ ts, s.inReset = false ∧ s.turns = .release :: ts ∧ t = s.popTurn) := by
  cases hr : s.inReset with
  | true =>
    rw [step_inReset hr] at h
    cases h
    exact Or.inl ⟨rfl, rfl⟩
  | false =>
    refine Or.inr ?_
    cases he : s.engineNext with
    | true =>
      rw [step_engineNext he] at h
      obtain ⟨hp, rfl⟩ | ⟨w, i, hp, hd, rfl⟩ := engineTurn_cases h
      · exact Or.inl ⟨rfl, hp, rfl⟩
      · exact Or.inr (Or.inl ⟨w, i, rfl, hp, hd, rfl⟩)
    | false =>
      have hn : ¬ (s.turns = [] ∨ ∃ ts, s.turns = .engine :: ts) := fun hts => by
        rw [(engineNext_iff s).mpr ⟨hr, hts⟩] at he
        cases he
      refine Or.inr (Or.inr ?_)
      unfold step at h
      rw [if_neg (by simp [hr])] at h
      cases hts : s.turns with
      | nil => exact absurd (Or.inl hts) hn
      | cons u ts =>
        rw [hts] at h
        cases u with
        | engine => exact absurd (Or.inr ⟨ts, hts⟩) hn
        | read a => cases h; exact Or.inl ⟨a, ts, rfl, rfl, rfl⟩
        | write a w => cases h; exact Or.inr (Or.inl ⟨a, w, ts, rfl, rfl, rfl⟩)
        | reset => cases h; exact Or.inr (Or.inr (Or.inl ⟨ts, rfl, rfl, rfl⟩))
        | release => cases h; exact Or.inr (Or.inr (Or.inr ⟨ts, rfl, rfl, rfl⟩))

/-- A run of one more step, by the outcome of the first. -/
theorem core_run_succ {s t : State} (k : Nat) (h : step s = .next t) :
    Sys2Proof.core.run (k + 1) s = Sys2Proof.core.run k t := by
  have h' : Sys2Proof.core.step s = .next t := h
  simp only [Host.Core.run]
  rw [h']

end Sys2Proof.Machine
end

