-- ==== Sys2Proof/Tests/Slice0.lean ====
section
/-! SUPPORT. Tests on fixed values, each expected result from spec/ (the vector's name stands beside it), and for every
obligation with hypotheses a witness: a concrete state and operands that meet them. -/

namespace Sys2Proof.Tests

open Sys2Proof.Machine

/-! ### Small states and readers of an outcome -/

/-- The block of a next state. -/
def blkOf : Host.Outcome State Fault Refusal → Option Block
  | .next s => some s.blk
  | .fault _ => none
  | .refused _ => none

/-- An outcome whose block is known is a next state. -/
theorem next_of_blkOf {o : Host.Outcome State Fault Refusal} {b : Block} (h : blkOf o = some b) :
    ∃ t, o = .next t ∧ t.blk = b := by
  cases o with
  | next t => exact ⟨t, rfl, by simpa [blkOf] using h⟩
  | fault r => simp [blkOf] at h
  | refused r => simp [blkOf] at h

/-- A state around a block, the engine's turn, the reset input released. -/
def around (b : Block) : State := { State.reset with blk := b }

/-- The reset block with a word pending. -/
def pending (w : Word) : Block := { Block.reset with pend := some w }

/-- A block in a burst that `e` lost frames began, consistent for `e ≥ 1`: the pitch is 40. -/
def burst (e : Nat) : Block :=
  { Block.reset with
    eraseCnt := BitVec.ofNat 32 e, pitch := 40, overlap := 10, cycleLen := BitVec.ofNat 32 (40 * min e 3) }

/-- A burst that fails `cons`: vector FL-5. -/
def corrupted : Block := { Block.reset with eraseCnt := 1 }

/-- `1000` at every index divisible by 50, else 0 (pulse50). -/
def pulses : Memory := (List.range 8).map fun n => (50 * n, 1000)

/-- The reset machine with a list of turns. -/
def hosted (b : Block) (ts : List Turn) : State := { State.reset with blk := b, turns := ts }

/-- The machine while the reset input is asserted, in a burst no reset block is in, with a word read before. -/
def held (ts : List Turn) : State := { hosted (burst 1) ts with inReset := true, rdata := some 7 }

/-! ### Encoding: the words of R68 written out field by field, `RSVD`, `LOST`, `OP` -/

theorem test_decode_nop : decode (0#27 ++ 0#1 ++ 0b0000#4) = .ok .nop := by decide
theorem test_decode_frameGood : decode (0#27 ++ 0#1 ++ 0b0001#4) = .ok .frameGood := by decide
theorem test_decode_frameLost : decode (0#27 ++ 1#1 ++ 0b0001#4) = .ok .frameLost := by decide
theorem test_decode_peRun : decode (0#27 ++ 0#1 ++ 0b0010#4) = .ok .peRun := by decide
theorem test_decode_snap : decode (0#27 ++ 0#1 ++ 0b0011#4) = .ok .snap := by decide

/-- EN-6, EN-7, EN-8: each illegal word is rejected by its own name. -/
theorem test_decode_illegal :
    decode 0x00000004 = .error .unknownOp ∧ decode 0x0000000F = .error .unknownOp
      ∧ decode 0x00000010 = .error .strayLost ∧ decode 0x00000012 = .error .strayLost
      ∧ decode 0x00000013 = .error .strayLost ∧ decode 0x00000021 = .error .reservedBits
      ∧ decode 0x80000001 = .error .reservedBits ∧ decode 0xFFFFFFFF = .error .reservedBits := by decide

/-- The words of R68. -/
theorem test_encode_words :
    encode .nop = 0x00000000 ∧ encode .frameGood = 0x00000001 ∧ encode .frameLost = 0x00000011
      ∧ encode .peRun = 0x00000002 ∧ encode .snap = 0x00000003 := by decide

theorem test_table_words :
    decodeTableWord 32 0x11 = some .frameLost ∧ decodeTableWord 32 3 = some .snap
      ∧ decodeTableWord 32 4 = none := by decide

/-! ### Ill-formed fields: one term for each check -/

theorem test_wf_reserved : ({ op := 0, lost := false, rsvd := 1 } : FormatC).check = some .reservedBits := by decide
theorem test_wf_strayLost : ({ op := 2, lost := true, rsvd := 0 } : FormatC).check = some .strayLost := by decide
theorem test_wf_unknownOp : ({ op := 4, lost := false, rsvd := 0 } : FormatC).check = some .unknownOp := by decide
theorem test_wf_refuses :
    ({ op := 0, lost := false, rsvd := 1 } : FormatC).wf = false
      ∧ ({ op := 2, lost := true, rsvd := 0 } : FormatC).wf = false
      ∧ ({ op := 4, lost := false, rsvd := 0 } : FormatC).wf = false := by decide
theorem test_wf_commands :
    Instr.nop.wf ∧ Instr.frameGood.wf ∧ Instr.frameLost.wf ∧ Instr.peRun.wf ∧ Instr.snap.wf := by decide

/-! ### Operations -/

/-- AR-1 to AR-7. -/
theorem test_arith :
    tdiv 7 2 = 3 ∧ tdiv (-7) 2 = -3 ∧ tdiv (-1) 3 = 0 ∧ tdiv 0 5 = 0
      ∧ clamp16 40000 = 32767 ∧ clamp16 (-40000) = -32768 ∧ clamp16 (-32768) = -32768 := by decide

/-- BL-3 and BL-5. -/
theorem test_blend :
    (List.range 3).map (blend (fun _ => 5) (fun _ => -7) 3) = [5, 1, -3]
      ∧ (List.range 4).map (blend (fun _ => -32768) (fun _ => 32767) 4) = [-32768, -16384, 0, 16383] := by decide

/-- BE-3 and BE-5. -/
theorem test_blendEnd :
    (List.range 10).map (blendEnd (fun _ => 2000) (fun _ => -1000) 10 3)
        = [-600, -340, -80, 180, 440, 700, 960, 1220, 1480, 1740]
      ∧ (List.range 10).map (blendEnd (fun _ => 2000) (fun _ => -1000) 10 6)
        = [0, 200, 400, 600, 800, 1000, 1200, 1400, 1600, 1800] := by decide

/-- AT-2 and AT-6. -/
theorem test_atten :
    [0, 1, 79].map (atten (fun _ => 10000) 2) = [8000, 7975, 6025]
      ∧ [0, 1, 79].map (atten (fun _ => 32767) 1) = [32767, 32685, 26295] := by decide

/-- CMP-1 to CMP-7. -/
theorem test_geq :
    geq ⟨0, 250⟩ ⟨-1, 250⟩ = true ∧ geq ⟨-1, 250⟩ ⟨0, 1000⟩ = false ∧ geq ⟨10, 400⟩ ⟨20, 1600⟩ = true
      ∧ geq ⟨20, 1600⟩ ⟨10, 400⟩ = true ∧ geq ⟨10, 400⟩ ⟨21, 1600⟩ = false
      ∧ geq ⟨-10, 400⟩ ⟨-21, 1600⟩ = true ∧ geq ⟨-21, 1600⟩ ⟨-10, 400⟩ = false := by decide

/-- CC-1 and CC-3: the indices EXTRACT reads and where it ends. -/
theorem test_extract :
    extractChunks 40 80 30 80 = (List.range' 380 10 ++ List.range' 350 40 ++ List.range' 350 30, 30)
      ∧ extractChunks 40 10 30 10 = (List.range' 380 10, 0) := by decide

/-- FG-2 and FG-3. -/
theorem test_recoveryLen :
    [1, 2, 3, 8].map (recoveryLen 28) = [28, 60, 80, 80] ∧ recoveryLen 10 3 = 74 := by decide

/-! ### Commands -/

theorem test_nop : blkOf (exec .nop (around (burst 2))) = some (burst 2) := by decide

/-- HB-3. -/
theorem test_snap :
    blkOf (exec .snap (around { Block.reset with hist := pulses }))
      = some { Block.reset with hist := pulses, pbuf := pulses } := by decide

/-- PE-3. -/
theorem test_peRun :
    blkOf (exec .peRun (around { Block.reset with pbuf := pulses }))
      = some { Block.reset with
          pbuf := pulses, pePitch := 50, peCoarseLag := 70, peLag := 70, peCorr := 3000000, peEnergy := 3000000 } := by
  decide +kernel

/-- FL-1, P1: a burst start on silence, by one step of the machine. -/
theorem test_frameLost_start :
    blkOf (step (State.reset.withFetchWord 32 0x11))
      = some { Block.reset with
          eraseCnt := 1, pitch := 40, overlap := 10, cycleLen := 40, offset := 0
          pePitch := 40, peCoarseLag := 80, peLag := 80 } := by decide +kernel

/-- FL-4: the count saturates and a silent frame is pushed: `HIST` shifts by 80. -/
theorem test_frameLost_mute :
    blkOf (exec .frameLost (around { burst 3 with eraseCnt := 0xFFFFFFFF, hist := [(389, 5)] }))
      = some { burst 3 with eraseCnt := 0xFFFFFFFF, hist := [(309, 5)], fout := [(29, 5)] } := by decide +kernel

/-- HB-1, on the last sample and the last that the tap shows: `FIN[49]` is `FOUT[79]`. -/
theorem test_frameGood_push :
    blkOf (exec .frameGood (around { Block.reset with fin := [(49, 50), (79, 80)] }))
      = some { Block.reset with
          fin := [(49, 50), (79, 80)], hist := [(359, 50), (389, 80)], fout := [(79, 50)] } := by decide +kernel

/-- FG-4: after eight losses the fade-in of `FIN[1] = −2300` starts at −28; `OFFSET` moves by 80. -/
theorem test_frameGood_recovers :
    blkOf (exec .frameGood (around { burst 8 with fin := [(1, -2300)] }))
      = some { burst 8 with
          eraseCnt := 0, offset := 80, fin := [(1, -2300)], hist := [(311, -28)], fout := [(31, -28)] } := by
  decide +kernel

/-! ### The bus -/

/-- BU-1, BU-2, BU-3. -/
theorem test_read_registers :
    (memRead .reset 0x000).rdata = some 0x504C4301 ∧ (memRead .reset 0x024).rdata = some 390
      ∧ (memRead .reset 0x028).rdata = some 390 := by decide

/-- BU-4 and BU-5: unmapped and misaligned addresses read 0, and `STATUS` is then 0x42. -/
theorem test_read_unmapped :
    [0x02C, 0x03C, 0x050, 0x540, 0x0E18, 0x1878, 0x1FFC, 0x002].map (fun a =>
        ((memRead .reset a).rdata, statusWord (memRead .reset a).blk))
      = List.replicate 8 (some 0, 0x42) := by decide

/-- BU-6. -/
theorem test_read_elements :
    decodeAddr 0x0E14 = .elem .hist 389 ∧ decodeAddr 0x1614 = .elem .pbuf 389
      ∧ decodeAddr 0x1874 = .elem .lastq 29 := by decide

/-- BU-8 and BU-9. -/
theorem test_write_sample :
    (memWrite Block.reset 0x400 0xFFFF8000).fin = [(0, -32768)]
      ∧ [0x00008000, 0xFFFF7FFF, 0x00010000].map (fun w =>
          (statusWord (memWrite Block.reset 0x400 w), (memWrite Block.reset 0x400 w).fin))
        = List.replicate 3 (0x62, []) := by decide

/-- BU-10, BU-11, BU-12. -/
theorem test_write_refused :
    memWrite Block.reset 0x600 5 = Block.reset ∧ memWrite Block.reset 0x010 5 = Block.reset
      ∧ statusWord (memWrite (burst 1) 0x1000 5) = 0x52 ∧ statusWord (memWrite (pending 0) 0x400 5) = 0x23 := by
  decide

/-- BU-13 to BU-16. -/
theorem test_write_control :
    memWrite (raiseError (pending 0) .busy) 0x00C 2 = pending 0
      ∧ memWrite (raiseError (pending 0) .busy) 0x00C 1 = raiseError (pending 0) .busy
      ∧ memWrite (pending 0) 0x004 1 = Block.reset ∧ memWrite (pending 0) 0x004 2 = pending 0 := by decide

/-- FL-5, FL-6, HB-4, P4: what a write to `CMD` is refused with. -/
theorem test_write_cmd :
    statusWord (memWrite corrupted 0x008 0x11) = 0x32 ∧ statusWord (memWrite corrupted 0x008 0x01) = 0x32
      ∧ statusWord (memWrite { burst 2 with cycleLen := 114, pitch := 114, overlap := 28 } 0x008 0x11) = 0x32
      ∧ statusWord (memWrite (burst 1) 0x008 3) = 0x52 ∧ statusWord (memWrite Block.reset 0x008 4) = 0x12 := by
  decide

/-! ### The reset input -/

/-- R147: under reset an unmapped read raises nothing and returns no word, a command written is lost, and the release
leaves the reset machine. -/
theorem test_reset_held :
    heldTurn (held []) (.read 0x02C) = { State.reset with inReset := true }
      ∧ (heldTurn (held []) (.write 0x008 0x11)).blk = Block.reset
      ∧ heldTurn (held []) .release = { State.reset with rdata := some 7 } := by decide

/-! ### The Frame Driver -/

/-- R128: a length that is no multiple of 80, or a label too many, is a contract error and no command. -/
theorem test_conceal_precheck :
    conceal [0] [true] true 0 .reset = .contractError .reset
      ∧ conceal [] [true] true 0 .reset = .contractError .reset := by decide

/-- R128, R129: after a frame with `ERR` set the driver stops; the word that stands for 2^32 is refused (R51). -/
theorem test_conceal_error :
    collectFrame (around (raiseError Block.reset .range))
        = .contractError { around (raiseError Block.reset .range) with rdata := some 0x62 }
      ∧ legalSampleWord (BitVec.ofInt 32 (driverSample 0x100000000)) = false := by decide

/-! ### The canonical form -/

/-- Writing 0 removes the entry, a write between two entries keeps the order. -/
theorem test_memory_canonical :
    Memory.set [(1, 7), (5, 9)] 1 0 = [(5, 9)] ∧ Memory.set [(1, 7), (5, 9)] 3 2 = [(1, 7), (3, 2), (5, 9)] := by
  decide

/-! ### Witnesses: what the obligations' hypotheses ask, met by a concrete state -/

theorem witness_IllegalWordsAreRefused :
    (∃ r, decode 0x00000004 = .error r) ∧ (∃ r, decode 0x00000010 = .error r) ∧ ∃ r, decode 0x00000020 = .error r :=
  ⟨⟨.unknownOp, by decide⟩, ⟨.strayLost, by decide⟩, ⟨.reservedBits, by decide⟩⟩

/-- The engine's turn, listed or not, with a command of each kind pending. -/
theorem witness_StepRunsDecodedCommand :
    ((around (pending 0x00000011)).inReset = false ∧ (around (pending 0x00000011)).turns = []
        ∧ (around (pending 0x00000011)).blk.pend = some 0x00000011
        ∧ decode 0x00000011 = .ok .frameLost)
      ∧ (hosted (pending 0x00000001) [.engine, .reset]).inReset = false
      ∧ (∃ ts, (hosted (pending 0x00000001) [.engine, .reset]).turns = .engine :: ts)
      ∧ (hosted (pending 0x00000001) [.engine, .reset]).blk.pend = some 0x00000001
      ∧ decode 0x00000001 = .ok .frameGood :=
  ⟨by decide, by decide, ⟨_, rfl⟩, by decide, by decide⟩

/-- The same states serve the statement that a completion records no error. -/
theorem witness_CompletionRaisesNoError :
    (around (pending 0x00000002)).inReset = false ∧ (around (pending 0x00000002)).turns = []
      ∧ (around (pending 0x00000002)).blk.pend = some 0x00000002
      ∧ decode 0x00000002 = .ok .peRun := by decide

theorem witness_IdleEngineKeepsState :
    (State.reset.inReset = false ∧ State.reset.turns = [] ∧ State.reset.blk.pend = none)
      ∧ (hosted (burst 2) [.engine]).inReset = false ∧ (∃ ts, (hosted (burst 2) [.engine]).turns = .engine :: ts) ∧ (hosted (burst 2) [.engine]).blk.pend = none :=
  ⟨by decide, by decide, ⟨_, rfl⟩, by decide⟩

/-- One state for each turn that is not the engine's. -/
theorem witness_StepTakesHostTurn :
    (∀ ts, (hosted (burst 1) ts).inReset = false)
      ∧ (hosted (burst 1) [.read 0x010]).turns = .read 0x010 :: []
      ∧ (hosted (burst 1) [.write 0x400 5, .engine]).turns = .write 0x400 5 :: [.engine]
      ∧ (hosted (burst 1) [.reset]).turns = .reset :: []
      ∧ (hosted (burst 1) [.release]).turns = .release :: [] :=
  ⟨fun _ => rfl, by decide⟩

/-- A block under reset before a read, before the release, and with nothing listed; and a step into reset. -/
theorem witness_AssertedResetHoldsTheBlock :
    (held [.read 0x010]).inReset = true ∧ (held [.read 0x010]).turns.head? = some (.read 0x010)
      ∧ ((held [.release]).inReset = true ∧ (held [.release]).turns.head? = some .release)
      ∧ ((held []).inReset = true ∧ ∀ a, (held []).turns.head? ≠ some (.read a))
      ∧ ∃ t, step (hosted (burst 1) [.reset]) = .next t ∧ t.inReset = true :=
  ⟨by decide, by decide, by decide, ⟨by decide, fun _ => by simp [held, hosted]⟩, _, rfl, rfl⟩

theorem witness_SnapThenPeRunPredictsBurst : (around { Block.reset with hist := pulses }).blk.eraseCnt = 0 := by decide

/-- Scores at the floor of 250, one pair for each of the four cases. -/
theorem witness_GeqComparesRealScores :
    (250 ≤ (⟨0, 250⟩ : Score).s ∧ 250 ≤ (⟨-1, 251⟩ : Score).s)
      ∧ (0 ≤ (⟨0, 250⟩ : Score).c ∧ (⟨-1, 251⟩ : Score).c < 0)
      ∧ (0 ≤ (⟨0, 250⟩ : Score).c ∧ 0 ≤ (⟨7, 250⟩ : Score).c)
      ∧ ((⟨-1, 251⟩ : Score).c < 0 ∧ (⟨-2, 250⟩ : Score).c < 0) := by decide

/-- A candidate later than the coarse winner, at the range's end, and one later than the fine winner. -/
theorem witness_LastBest :
    80 % 2 = 0 ∧ (pe pulses.at).coarse < 80
      ∧ (pe pulses.at).coarse - 1 ≤ (pe pulses.at).lag + 1
      ∧ (pe pulses.at).lag + 1 ≤ min 80 ((pe pulses.at).coarse + 1) := by decide +kernel

/-- The first and the last recurrence of each stage. -/
theorem witness_RunningEnergiesAreExact :
    (2 ≤ 2 ∧ 2 ≤ 80) ∧ (2 ≤ 80 ∧ 80 ≤ 80) ∧ (1 ≤ 1 ∧ 1 ≤ 80) ∧ 1 ≤ 80 ∧ 80 ≤ 80 := by decide

/-- The extreme samples, at the blend's first and last index. -/
theorem witness_BlendStaysBetweenItsInputs :
    (∀ k, -32768 ≤ (fun _ : Nat => (-32768 : Int)) k ∧ (fun _ : Nat => (-32768 : Int)) k ≤ 32767)
      ∧ (∀ k, -32768 ≤ (fun _ : Nat => (32767 : Int)) k ∧ (fun _ : Nat => (32767 : Int)) k ≤ 32767)
      ∧ 0 < 30 ∧ 29 < 30 :=
  ⟨fun _ => by simp, fun _ => by simp, by decide⟩

theorem witness_BlendEndMeetsBlendAndFadeIn :
    (∀ k, -32768 ≤ (fun _ : Nat => (-32768 : Int)) k ∧ (fun _ : Nat => (-32768 : Int)) k ≤ 32767)
      ∧ 79 < 80 ∧ 6 ≤ 6 :=
  ⟨fun _ => by simp, by decide⟩

/-- The extreme sample, the first and the last count, the last index. -/
theorem witness_AttenuationNeverAmplifies :
    (∀ k, -32768 ≤ (fun _ : Nat => (-32768 : Int)) k ∧ (fun _ : Nat => (-32768 : Int)) k ≤ 32767)
      ∧ (1 ≤ 1 ∧ 1 ≤ 5) ∧ (1 ≤ 5 ∧ 5 ≤ 5) ∧ 79 < 80 :=
  ⟨fun _ => by simp, by decide⟩

/-- CC-1's cursor, and the widest window. -/
theorem witness_ChunkedExtractMatchesClosedForm :
    (30 < 40 ∧ 40 ≤ 390 ∧ 80 ≤ 80) ∧ 389 < 390 ∧ 390 ≤ 390 ∧ 0 ≤ 0 := by decide

/-- The last offset of a cycle, and the longest cycle of a burst. -/
theorem witness_ExtractMovesOnlyTheCursor :
    ({ burst 1 with offset := 39 }.offset.toNat < { burst 1 with offset := 39 }.cycleLen.toNat
        ∧ (burst 1).cycleLen.toNat ≤ 390)
      ∧ (360 : Word).toNat ≤ 390 ∧ (359 : Word).toNat < (360 : Word).toNat := by decide

theorem witness_BurstStartRebuildsEngine : (around { Block.reset with hist := pulses }).blk.eraseCnt = 0 := by decide

theorem witness_ShortExtensionGrowsTheCycle :
    ((around (burst 1)).blk.eraseCnt.toNat = 1 ∧ (around (burst 1)).blk.Cons)
      ∧ (around (burst 2)).blk.eraseCnt.toNat = 2 ∧ (around (burst 2)).blk.Cons := by decide

theorem witness_SteadyRepeatWalksTheCycle :
    ((around (burst 3)).blk.eraseCnt.toNat = 3 ∧ (around (burst 3)).blk.Cons)
      ∧ (around (burst 5)).blk.eraseCnt.toNat = 5 ∧ (around (burst 5)).blk.Cons := by decide

/-- The first muted count, the last, and an engine that is not consistent. -/
theorem witness_MutePushesSilence :
    5 < (around (burst 6)).blk.eraseCnt.toNat
      ∧ 5 < (around { burst 6 with eraseCnt := 0xFFFFFFFF }).blk.eraseCnt.toNat
      ∧ 5 < (around { corrupted with eraseCnt := 6 }).blk.eraseCnt.toNat := by decide

theorem witness_GoodFramePassesThrough :
    (around { Block.reset with fin := pulses.take 2 }).blk.eraseCnt = 0 := by decide

/-- The shortest recovery, and one after eight losses. -/
theorem witness_RecoveryBlendsOutOfTheBurst :
    ((around (burst 1)).blk.eraseCnt.toNat = 1 ∧ 1 ≠ 0 ∧ (around (burst 1)).blk.Cons)
      ∧ (around (burst 8)).blk.eraseCnt.toNat = 8 ∧ (around (burst 8)).blk.Cons := by decide

theorem witness_FrameCommandsKeepTheRest : (around (burst 4)).blk.eraseCnt ≠ 0 := by decide

theorem witness_OutputTapDelaysThirtySamples :
    (Instr.frameGood = .frameGood ∨ Instr.frameGood = .frameLost)
      ∧ (Instr.frameLost = .frameGood ∨ Instr.frameLost = .frameLost) := by decide

theorem witness_BurstIgnoresHistory : (around { burst 2 with hist := pulses }).blk.eraseCnt ≠ 0 := by decide

/-- The burst start, both ends of the frames that move the cursor, and the first mute. -/
theorem witness_BurstRunsTheRegimesInOrder :
    State.reset.blk.eraseCnt = 0 ∧ 0 + 1 < 2 ^ 32 ∧ (1 ≤ 1 ∧ 1 ≤ 5) ∧ (1 ≤ 5 ∧ 5 ≤ 5) ∧ 6 ≤ 6
      ∧ 6 + 1 < 2 ^ 32 := by decide

/-- A misaligned address; the first and the last word of each memory are the bounds the statement names. -/
theorem witness_AddressMapIsExact :
    (0x402 : BusAddr).toNat % 4 ≠ 0 ∧ decodeAddr 0x400 = .elem .fin 0 ∧ decodeAddr 0x53C = .elem .fin 79
      ∧ decodeAddr 0x600 = .elem .fout 0 ∧ decodeAddr 0x73C = .elem .fout 79 ∧ decodeAddr 0x800 = .elem .hist 0
      ∧ decodeAddr 0x1000 = .elem .pbuf 0 ∧ decodeAddr 0x1800 = .elem .lastq 0
      ∧ decodeAddr 0x04C = .reg .peEnergyHi := by decide

/-- The first and the last element, in a burst for `FIN` and `HIST`, outside one for `PBUF` and `LASTQ`; the extreme
legal word and the first that is not. -/
theorem witness_SampleWriteStoresOrRefuses :
    (decodeAddr 0x53C = .elem .fin 79 ∧ (around (burst 1)).blk.pend = none)
      ∧ (decodeAddr 0x800 = .elem .hist 0 ∧ decodeAddr 0x1874 = .elem .lastq 29 ∧ State.reset.blk.eraseCnt = 0)
      ∧ legalSampleWord 0x00007FFF = true ∧ legalSampleWord 0xFFFF8000 = true
      ∧ legalSampleWord 0x00008000 = false := by decide

/-- One state and address for each clause. -/
theorem witness_WriteErrorsHavePriority :
    decodeAddr 0x02C = .unmapped
      ∧ (decodeAddr 0x008 = .reg .cmd ∧ (pending 0).pend ≠ none)
      ∧ decodeAddr 0x600 = .elem .fout 0
      ∧ (decodeAddr 0x000 = .reg .id ∧ Block.reset.pend = none)
      ∧ (decodeAddr 0x1000 = .elem .pbuf 0 ∧ decodeAddr 0x1874 = .elem .lastq 29
        ∧ (burst 1).pend = none ∧ (burst 1).eraseCnt ≠ 0) := by decide

theorem witness_ResetValues :
    ((hosted (burst 3) [.reset]).inReset = false ∧ (hosted (burst 3) [.reset]).turns = .reset :: [])
      ∧ ((held [.release]).inReset = true ∧ (held [.release]).turns = .release :: [])
      ∧ (1 : Word).getLsbD 0 = true := by decide

theorem witness_SoftResetRestoresEveryField :
    (1 : Word).getLsbD 0 = true ∧ (0xFFFFFFFE : Word).getLsbD 0 = false := by decide

theorem witness_StatusWordAndItsClear :
    (2 : Word).getLsbD 1 = true ∧ (0xFFFFFFFD : Word).getLsbD 1 = false := by decide

/-- One address for each clause, with a command pending and without. -/
theorem witness_ReadsReturnTheirValue :
    decodeAddr 0x1FFC = .unmapped ∧ decodeAddr 0x000 = .reg .id ∧ decodeAddr 0x004 = .reg .ctrl
      ∧ decodeAddr 0x008 = .reg .cmd ∧ decodeAddr 0x00C = .reg .status ∧ decodeAddr 0xE14 = .elem .hist 389
      ∧ State.reset.blk.pend = none ∧ (around (pending 0)).blk.pend ≠ none
      ∧ decodeAddr 0x010 = .reg .eraseCnt ∧ Reg.eraseCnt ∉ [Reg.id, .ctrl, .cmd, .status] := by decide

theorem witness_IdleRegisterReads :
    decodeAddr 0x04C = .reg .peEnergyHi ∧ (around (burst 3)).blk.pend = none := by decide

/-- One state for each clause. -/
theorem witness_CommandWriteValidates :
    Block.reset.pend = none ∧ (∃ r, decode 0x00000004 = .error r)
      ∧ ((burst 1).pend = none ∧ (burst 1).eraseCnt ≠ 0 ∧ (burst 1).Cons)
      ∧ (corrupted.pend = none ∧ corrupted.eraseCnt ≠ 0 ∧ ¬ corrupted.Cons)
      ∧ Block.reset.eraseCnt = 0 :=
  ⟨by decide, ⟨.unknownOp, by decide⟩, by decide, by decide, by decide⟩

/-- An error recorded before, and a step that would raise another. -/
theorem witness_FirstErrorIsKeptUntilCleared :
    (raiseError (pending 0) .busy).err = true ∧ Block.reset.err = false
      ∧ (hosted (raiseError (pending 0) .busy) [.write 0x02C 5]).inReset = false
      ∧ (∃ t, step (hosted (raiseError (pending 0) .busy) [.write 0x02C 5]) = .next t)
      ∧ ∀ u ∈ (hosted (raiseError (pending 0) .busy) [.write 0x02C 5]).turns.head?,
          u.clearsError = false ∧ u.resets = false :=
  ⟨by decide, by decide, by decide, ⟨_, rfl⟩, by decide⟩

/-- A consistent burst with a lost frame pending: every invariant holds and the step answers. -/
theorem witness_Invariants :
    (around { burst 2 with pend := some 0x00000011 }).blk.EngineOk
      ∧ (around { burst 2 with pend := some 0x00000011 }).blk.BurstRegsLegal
      ∧ (around { burst 2 with pend := some 0x00000011 }).blk.PeRegsLegal
      ∧ (around { burst 2 with pend := some 0x00000011 }).blk.MemWf
      ∧ (around { burst 2 with pend := some 0x00000011 }).blk.PendOk
      ∧ (around { burst 2 with pend := some 0x00000011 }).blk.ErrOk
      ∧ ∃ t, step (around { burst 2 with pend := some 0x00000011 }) = .next t :=
  ⟨by decide, by decide, by decide, by decide, fun _ h => (by cases h; decide), by decide, ⟨_, rfl⟩⟩

/-- The same at a host's turn. -/
theorem witness_Invariants_host :
    (hosted (burst 1) [.write 0x008 0x11]).blk.EngineOk ∧ (hosted (burst 1) [.write 0x008 0x11]).blk.PendOk
      ∧ (hosted (burst 1) [.write 0x008 0x11]).blk.MemWf
      ∧ ∃ t, step (hosted (burst 1) [.write 0x008 0x11]) = .next t :=
  ⟨by decide, fun _ h => (by cases h), by decide, ⟨_, rfl⟩⟩

/-- A completion that counts and a reset that clears the count. -/
theorem witness_OnlyFramesAndResetsCountErasures :
    (∃ t, step (around { burst 6 with pend := some 0x00000011 }) = .next t
        ∧ t.blk.eraseCnt ≠ (around { burst 6 with pend := some 0x00000011 }).blk.eraseCnt)
      ∧ ∃ t, step (hosted (burst 6) [.reset]) = .next t
        ∧ t.blk.eraseCnt ≠ (hosted (burst 6) [.reset]).blk.eraseCnt := by
  obtain ⟨t, ht, h⟩ := next_of_blkOf (o := step (around { burst 6 with pend := some 0x00000011 }))
    (b := { burst 6 with eraseCnt := 7 }) (by decide +kernel)
  obtain ⟨u, hu, k⟩ := next_of_blkOf (o := step (hosted (burst 6) [.reset])) (b := Block.reset) (by decide)
  exact ⟨⟨t, ht, by rw [h]; decide⟩, u, hu, by rw [k]; decide⟩

/-- The engine's turn with `snap` pending, and a host's turn in a burst. -/
theorem witness_MemoriesHaveTheirWriters :
    ((around (pending 3)).inReset = false ∧ (hosted (burst 1) [.write 0x1000 5]).inReset = false)
      ∧ ((∃ t, step (around (pending 3)) = .next t) ∧ (∀ u ∈ (around (pending 3)).turns.head?, u.resets = false)
        ∧ (around (pending 3)).engineNext = true ∧ (around (pending 3)).blk.pend ≠ some 0x00000001
        ∧ (around (pending 3)).blk.pend ≠ some 0x00000011)
      ∧ (∃ t, step (hosted (burst 1) [.write 0x1000 5]) = .next t)
      ∧ (∀ u ∈ (hosted (burst 1) [.write 0x1000 5]).turns.head?, u.resets = false)
      ∧ (hosted (burst 1) [.write 0x1000 5]).engineNext = false
      ∧ (hosted (burst 1) [.write 0x1000 5]).blk.eraseCnt ≠ 0 :=
  ⟨by decide, ⟨⟨_, rfl⟩, by decide⟩, ⟨_, rfl⟩, by decide⟩

/-- A host that writes, reads and clears while a genuine frame is pending. -/
theorem witness_HostCannotDisturbPendingCommand :
    (hosted (pending 1) [.write 0x400 5, .read 0x010, .write 0x00C 2]).inReset = false
      ∧ (hosted (pending 1) [.write 0x400 5, .read 0x010, .write 0x00C 2]).blk.pend = some 1
      ∧ decode 1 = .ok .frameGood
      ∧ ∀ u ∈ (hosted (pending 1) [.write 0x400 5, .read 0x010, .write 0x00C 2]).turns,
          u.isAccess = true ∧ u.resets = false := by decide

/-- Two instances, the first stepping. -/
theorem witness_InstancesAreIndependent :
    (∃ q, Platform.stepAt [⟨0, State.reset⟩, ⟨0x2000, State.reset⟩] 0 = .next q) ∧ 1 ≠ 0 :=
  ⟨⟨_, rfl⟩, by decide⟩

/-- Two windows side by side, an access to the first word of the second, and one outside both. -/
theorem witness_AccessReachesOneWindow :
    (Platform.reset [0, 0x2000]).Wf
      ∧ ((Platform.reset [0, 0x2000])[1]? = some ⟨0x2000, State.reset⟩)
      ∧ (⟨0x2000, State.reset⟩ : Engine).answers 0x2000 = true
      ∧ (∀ x ∈ Platform.reset [0, 0x2000], x.answers 0x4000 = false)
      ∧ ∃ q, (Platform.reset [0, 0x2000]).stepAt 0 = .next q :=
  ⟨by decide, by decide, by decide, by decide, ⟨_, rfl⟩⟩

end Sys2Proof.Tests
end

