-- ==== Sys2Proof/Proofs/MemoriesStayCanonical.lean ====
section
/-! O49: every step keeps the five sample memories canonical (log entry 5). A memory is replaced by a built one, by
another memory of its size, or by a set of one element inside it, so each operation of the block keeps `MemWf`; the
step's cases (`step_cases`) then give the invariant. -/

namespace Sys2Proof.Machine

/-! ### The reset and the error record -/

theorem reset_memWf : Block.reset.MemWf :=
  ⟨Memory.wf_nil _, Memory.wf_nil _, Memory.wf_nil _, Memory.wf_nil _, Memory.wf_nil _⟩

theorem raiseError_memWf {b : Block} (h : b.MemWf) (c : ErrCode) : (raiseError b c).MemWf := by
  simpa only [Block.MemWf, raiseError_hist, raiseError_pbuf, raiseError_lastq, raiseError_fin, raiseError_fout] using h

/-! ### Host accesses (R52, R53) -/

/-- The invariant, region by region: each memory is canonical at its own length (R49). -/
theorem memWf_iff_mem (b : Block) : b.MemWf ↔ ∀ g : Region, (b.mem g).wf g.len = true := by
  constructor
  · rintro ⟨hhist, hpbuf, hlastq, hfin, hfout⟩ g
    cases g with
    | fin => exact hfin
    | fout => exact hfout
    | hist => exact hhist
    | pbuf => exact hpbuf
    | lastq => exact hlastq
  · intro h
    exact ⟨h .hist, h .pbuf, h .lastq, h .fin, h .fout⟩

theorem withMem_memWf {b : Block} {g : Region} {m : Memory} (hm : m.wf g.len = true) (h : b.MemWf) :
    (b.withMem g m).MemWf := by
  rw [memWf_iff_mem] at h ⊢
  intro g'
  by_cases hg : g' = g
  · subst hg
    rwa [Block.mem_withMem]
  · rw [Block.mem_withMem_ne b m hg]
    exact h g'

/-- The only write into a memory sets one element, and address decoding bounds its index (R50). -/
theorem memWrite_memWf {b : Block} (h : b.MemWf) (a : BusAddr) (w : Word) : (memWrite b a w).MemWf := by
  obtain ⟨c, e⟩ | ⟨_, _, e⟩ | ⟨_, _, e⟩ | ⟨_, _, _, e⟩ | ⟨g, k, _, hdec, _, _, _, e⟩ | e := memWrite_cases b a w
  all_goals rw [e]
  · exact raiseError_memWf h c
  · exact reset_memWf
  · exact h
  · exact h
  · have hmem : (b.mem g).wf g.len = true := (memWf_iff_mem b).mp h g
    exact withMem_memWf (Memory.wf_set _ (decodeAddr_elem_lt hdec) hmem) h
  · exact h

theorem memRead_memWf {s : State} (h : s.blk.MemWf) (a : BusAddr) : (memRead s a).blk.MemWf := by
  rw [memRead_blk]
  split
  · exact raiseError_memWf h _
  · exact h

/-! ### Commands (R76) -/

/-- PUSH rebuilds `HIST` and `FOUT` whole (R123, R124), so it asks nothing of their old content. -/
theorem push_memWf {b : Block} (hpbuf : b.pbuf.wf 390 = true) (hlastq : b.lastq.wf 30 = true)
    (hfin : b.fin.wf 80 = true) (f : Nat → Sample) : (push b f).MemWf :=
  ⟨shiftIn_wf _ _, hpbuf, hlastq, hfin, outputTap_wf _⟩

/-- Every regime leaves `PBUF` and `LASTQ` as they were or rebuilds them (R112 to R116). -/
theorem synthesize_pbuf_lastq_wf {b : Block} (hpbuf : b.pbuf.wf 390 = true) (hlastq : b.lastq.wf 30 = true) (e : Nat) :
    (synthesize b e).2.pbuf.wf 390 = true ∧ (synthesize b e).2.lastq.wf 30 = true := by
  obtain rfl | ⟨h1, h2⟩ | ⟨h3, h5⟩ | h6 : e = 0 ∨ (1 ≤ e ∧ e ≤ 2) ∨ (3 ≤ e ∧ e ≤ 5) ∨ 6 ≤ e := by omega
  · rw [synthesize_zero, burstStart_eq, extract_pbuf, extract_lastq, stitch_pbuf, stitch_lastq, arm_lastq]
    exact ⟨stitchedPbuf_wf _, capturedLastq_wf _⟩
  · rw [synthesize_short b h1 h2]
    exact ⟨stitchedPbuf_wf _, hlastq⟩
  · rw [synthesize_steady b h3 h5]
    exact ⟨hpbuf, hlastq⟩
  · rw [synthesize_mute b h6]
    exact ⟨hpbuf, hlastq⟩

theorem frameLost_memWf {b : Block} (h : b.MemWf) : (frameLost b).MemWf := by
  obtain ⟨_, hpbuf, hlastq, hfin, _⟩ := h
  obtain ⟨hpbuf', hlastq'⟩ := synthesize_pbuf_lastq_wf hpbuf hlastq b.eraseCnt.toNat
  obtain ⟨_, efin, _⟩ := synthesize_frame b b.eraseCnt.toNat
  rw [frameLost_eq]
  exact push_memWf hpbuf' hlastq' (efin ▸ hfin) _

theorem frameGood_memWf {b : Block} (h : b.MemWf) : (frameGood b).MemWf := by
  obtain ⟨_, hpbuf, hlastq, hfin, _⟩ := h
  by_cases he : b.eraseCnt.toNat = 0
  · rw [frameGood_of_idle he]
    exact push_memWf hpbuf hlastq hfin _
  · rw [frameGood_of_burst he]
    exact push_memWf hpbuf hlastq hfin _

/-- The estimator writes the PE result registers only (R101). -/
theorem writePE_memWf {b : Block} (h : b.MemWf) (r : PEResult) : (writePE b r).MemWf := h

theorem execBlk_memWf {b : Block} (h : b.MemWf) (i : Instr) : (execBlk i b).MemWf := by
  cases i with
  | nop => exact h
  | frameGood => exact frameGood_memWf h
  | frameLost => exact frameLost_memWf h
  | peRun => exact writePE_memWf h _
  | snap =>
    obtain ⟨hhist, _, hlastq, hfin, hfout⟩ := h
    exact ⟨hhist, hhist, hlastq, hfin, hfout⟩

/-! ### The step -/

/-- Settles O49, by the cases of a step. -/
theorem memoriesStayCanonical : Obligations.MemoriesStayCanonical := by
  intro s t h hstep
  obtain ⟨_, rfl⟩ | ⟨_, _, rfl⟩ | ⟨w, i, _, _, _, rfl⟩ | ⟨a, _, _, _, rfl⟩ | ⟨a, w, _, _, _, rfl⟩ | ⟨_, _, _, rfl⟩
    | ⟨_, _, _, rfl⟩ := step_cases hstep
  · rw [popTurn_blk, heldTurn_blk]
    exact reset_memWf
  · exact h
  · exact execBlk_memWf h i
  · exact memRead_memWf h a
  · exact memWrite_memWf h a w
  · exact reset_memWf
  · exact h

end Sys2Proof.Machine
end

/-! The family of statements about the state: the invariants of the block, who writes its fields, its reset values and
its register views. The step's cases (`step_cases`) reduce each of them to the operations of the block. -/

namespace Sys2Proof.Machine

/-! ### The words of the frame commands (R68) -/

/-- A legal word is the word of its command. -/
theorem eq_encode_of_decode {w : Word} {i : Instr} (h : decode w = .ok i) : w = encode i := by
  unfold decode at h
  split_ifs at h with h0 h1 h2 h3 h4 <;> cases h
  · exact h0
  · exact h1
  · exact h2
  · exact h3
  · exact h4

theorem encode_frameGood : encode .frameGood = 0x00000001 := by decide
theorem encode_frameLost : encode .frameLost = 0x00000011 := by decide

/-- A pending command whose word is neither of the two frame words is no frame command. -/
theorem not_frame_of_decode {w : Word} {i : Instr} (h : decode w = .ok i) (h1 : w ≠ 0x00000001)
    (h2 : w ≠ 0x00000011) : i ≠ .frameGood ∧ i ≠ .frameLost := by
  constructor
  · rintro rfl
    exact h1 ((eq_encode_of_decode h).trans encode_frameGood)
  · rintro rfl
    exact h2 ((eq_encode_of_decode h).trans encode_frameLost)

/-! ### The registers (R25 to R36) -/

/-- The registers of the block that hold a value of their own (R25 to R29, R32 to R36). -/
structure Regs where
  eraseCnt : Word
  pitch : Word
  overlap : Word
  cycleLen : Word
  offset : Word
  pePitch : Word
  peCoarseLag : Word
  peLag : Word
  peCorr : DWord
  peEnergy : DWord

/-- The registers a block holds. -/
def Block.regs (b : Block) : Regs :=
  { eraseCnt := b.eraseCnt, pitch := b.pitch, overlap := b.overlap, cycleLen := b.cycleLen, offset := b.offset
    pePitch := b.pePitch, peCoarseLag := b.peCoarseLag, peLag := b.peLag, peCorr := b.peCorr, peEnergy := b.peEnergy }

theorem regs_eq_iff (b b' : Block) : b'.regs = b.regs ↔
    b'.eraseCnt = b.eraseCnt ∧ b'.pitch = b.pitch ∧ b'.overlap = b.overlap ∧ b'.cycleLen = b.cycleLen
      ∧ b'.offset = b.offset ∧ b'.pePitch = b.pePitch ∧ b'.peCoarseLag = b.peCoarseLag ∧ b'.peLag = b.peLag
      ∧ b'.peCorr = b.peCorr ∧ b'.peEnergy = b.peEnergy := by
  simp only [Block.regs, Regs.mk.injEq]

@[simp] theorem raiseError_regs (b : Block) (c : ErrCode) : (raiseError b c).regs = b.regs := by
  simp [regs_eq_iff]

@[simp] theorem withMem_regs (b : Block) (g : Region) (m : Memory) : (b.withMem g m).regs = b.regs := by
  cases g <;> rfl

theorem engineOk_congr {b b' : Block} (h : b'.regs = b.regs) : b'.EngineOk ↔ b.EngineOk := by
  obtain ⟨he, hp, ho, hc, hf, _⟩ := (regs_eq_iff b b').mp h
  simp only [Block.EngineOk, Block.Cons, he, hp, ho, hc, hf]

theorem burstRegsLegal_congr {b b' : Block} (h : b'.regs = b.regs) : b'.BurstRegsLegal ↔ b.BurstRegsLegal := by
  obtain ⟨_, hp, ho, hc, hf, _⟩ := (regs_eq_iff b b').mp h
  simp only [Block.BurstRegsLegal, hp, ho, hc, hf]

theorem peRegsLegal_congr {b b' : Block} (h : b'.regs = b.regs) : b'.PeRegsLegal ↔ b.PeRegsLegal := by
  obtain ⟨_, _, _, _, _, hp, hc, hl, _⟩ := (regs_eq_iff b b').mp h
  simp only [Block.PeRegsLegal, hp, hc, hl]

/-- What validation asks is asked of the registers (R75). -/
theorem validate_congr_regs {b b' : Block} (h : b'.regs = b.regs) (w : Word) : validate b' w = validate b w := by
  obtain ⟨he, hp, ho, hc, hf, _⟩ := (regs_eq_iff b b').mp h
  exact validate_congr he hp ho hc hf w

/-! ### What a step does to the registers -/

/-- A write of `CTRL` with bit 0 set is a resetting turn (R148). -/
theorem resets_of_ctrl {a : BusAddr} {w : Word} (ha : decodeAddr a = .reg .ctrl) (hw : w.getLsbD 0 = true) :
    (Turn.write a w).resets = true := by
  rw [Turn.resets, hw, Bool.and_true]
  exact decide_eq_true ha

/-- A host write resets the block by a set bit 0 of `CTRL` (R148), or keeps every register. -/
theorem memWrite_reset_or_regs (b : Block) (a : BusAddr) (w : Word) :
    ((Turn.write a w).resets = true ∧ memWrite b a w = Block.reset) ∨ (memWrite b a w).regs = b.regs := by
  obtain ⟨c, e⟩ | ⟨ha, hw, e⟩ | ⟨_, _, e⟩ | ⟨_, _, _, e⟩ | ⟨g, k, _, _, _, _, _, e⟩ | e := memWrite_cases b a w
  all_goals rw [e]
  · exact Or.inr (raiseError_regs b c)
  · exact Or.inl ⟨resets_of_ctrl ha hw, rfl⟩
  · exact Or.inr rfl
  · exact Or.inr rfl
  · exact Or.inr (withMem_regs b g _)
  · exact Or.inr rfl

@[simp] theorem memRead_regs (s : State) (a : BusAddr) : (memRead s a).blk.regs = s.blk.regs := by
  rw [memRead_blk]
  split
  · exact raiseError_regs _ _
  · rfl

/-- The step as the registers see it: a reset, the completion of a command, or nothing. -/
theorem step_regs_cases {s t : State} (h : step s = .next t) :
    ((s.inReset = true ∨ ∃ u ∈ s.turns.head?, u.resets = true) ∧ t.blk = Block.reset)
      ∨ (∃ w i, s.engineNext = true ∧ s.blk.pend = some w ∧ decode w = .ok i
          ∧ t.blk = { execBlk i s.blk with pend := none })
      ∨ t.blk.regs = s.blk.regs := by
  obtain ⟨hr, rfl⟩ | ⟨_, _, rfl⟩ | ⟨w, i, he, hp, hd, rfl⟩ | ⟨a, _, _, _, rfl⟩ | ⟨a, w, ts, _, hts, rfl⟩
    | ⟨ts, _, hts, rfl⟩ | ⟨_, _, _, rfl⟩ := step_cases h
  · exact Or.inl ⟨Or.inl hr, by simp⟩
  · exact Or.inr (Or.inr rfl)
  · exact Or.inr (Or.inl ⟨w, i, he, hp, hd, rfl⟩)
  · exact Or.inr (Or.inr (memRead_regs s a))
  · obtain ⟨hres, e⟩ | e := memWrite_reset_or_regs s.blk a w
    · exact Or.inl ⟨Or.inr ⟨_, by simp [hts], hres⟩, e⟩
    · exact Or.inr (Or.inr e)
  · exact Or.inl ⟨Or.inr ⟨.reset, by simp [hts], rfl⟩, rfl⟩
  · exact Or.inr (Or.inr rfl)

/-! ### The cycle window of a burst (R45, R105) -/

/-- The burst registers describe a cycle window of `n` pitches with the cursor inside it: `cons` with the number of
pitches named, so that it can be followed through a synthesis, which runs before the count changes (R111). -/
structure Block.CycleOk (b : Block) (n : Nat) : Prop where
  pitch_ge : 40 ≤ b.pitch.toNat
  pitch_le : b.pitch.toNat ≤ 120
  overlap_eq : b.overlap.toNat = b.pitch.toNat >>> 2
  cycleLen_eq : b.cycleLen.toNat = b.pitch.toNat * n
  offset_lt : b.offset.toNat < b.cycleLen.toNat

/-- The window is a matter of four registers. -/
theorem Block.CycleOk.of_eq {b b' : Block} {n : Nat} (h : b.CycleOk n) (hp : b'.pitch = b.pitch)
    (ho : b'.overlap = b.overlap) (hc : b'.cycleLen = b.cycleLen) (hf : b'.offset = b.offset) : b'.CycleOk n where
  pitch_ge := hp ▸ h.pitch_ge
  pitch_le := hp ▸ h.pitch_le
  overlap_eq := by rw [ho, hp, h.overlap_eq]
  cycleLen_eq := by rw [hc, hp, h.cycleLen_eq]
  offset_lt := by
    rw [hf, hc]
    exact h.offset_lt

theorem cons_iff_cycleOk (b : Block) : b.Cons ↔ b.CycleOk (min b.eraseCnt.toNat 3) :=
  ⟨fun ⟨h1, h2, h3, h4, h5⟩ => ⟨h1, h2, h3, h4, h5⟩, fun ⟨h1, h2, h3, h4, h5⟩ => ⟨h1, h2, h3, h4, h5⟩⟩

/-- Up to three pitches fit the Pitch Buffer, so EXTRACT's contract holds (R103). -/
theorem Block.CycleOk.cursorOk {b : Block} {n : Nat} (h : b.CycleOk n) (hn : n ≤ 3) : b.CursorOk := by
  have hlen := Nat.mul_le_mul h.pitch_le hn
  exact ⟨h.offset_lt, by rw [h.cycleLen_eq]; simp only [Config.HISTORY_LEN]; omega⟩

theorem Block.CycleOk.burstRegsLegal {b : Block} {n : Nat} (h : b.CycleOk n) (h1 : 1 ≤ n) (h3 : n ≤ 3) :
    b.BurstRegsLegal := by
  refine ⟨Or.inr ⟨h.pitch_ge, h.pitch_le⟩, h.overlap_eq, ?_, fun _ => h.offset_lt⟩
  have hlen := h.cycleLen_eq
  obtain rfl | rfl | rfl : n = 1 ∨ n = 2 ∨ n = 3 := by omega
  all_goals omega

/-- EXTRACT moves the cursor inside the window and changes nothing else of it (R103). -/
theorem extract_cycleOk {b : Block} {n : Nat} (h : b.CycleOk n) (hn : n ≤ 3) (size : Nat) :
    (extract b size).2.CycleOk n where
  pitch_ge := h.pitch_ge
  pitch_le := h.pitch_le
  overlap_eq := h.overlap_eq
  cycleLen_eq := h.cycleLen_eq
  offset_lt := by
    rw [extract_offset, advanceOffset_of_ok (h.cursorOk hn)]
    exact Nat.mod_lt _ (Nat.zero_lt_of_lt h.offset_lt)

/-- The estimated pitch lies in R26's range. -/
theorem pe_pitch_range (x : Nat → Int) : 40 ≤ (pe x).pitch ∧ (pe x).pitch ≤ 120 := by
  have hlag := (pe_lag_range x).2.1
  rw [pe_pitch_eq]
  omega

/-- A number of the estimator's range keeps its value in a register. -/
theorem toNat_ofNat_of_le {n : Nat} (h : n ≤ 120) : (BitVec.ofNat 32 n).toNat = n := by
  rw [BitVec.toNat_ofNat]
  exact Nat.mod_eq_of_lt (by omega)

/-- Burst start opens a window of one pitch with the cursor at its start (R112). -/
theorem arm_cycleOk (b : Block) {r : PEResult} (h1 : 40 ≤ r.pitch) (h2 : r.pitch ≤ 120) : (arm b r).CycleOk 1 := by
  have hp : (arm b r).pitch.toNat = r.pitch := toNat_ofNat_of_le h2
  have hc : (arm b r).cycleLen.toNat = r.pitch := toNat_ofNat_of_le h2
  have ho : (arm b r).overlap.toNat = r.pitch >>> 2 := toNat_ofNat_of_le ((Nat.shiftRight_le _ _).trans h2)
  constructor
  · rwa [hp]
  · rwa [hp]
  · rw [ho, hp]
  · rw [hc, hp, Nat.mul_one]
  · rw [hc, arm_offset]
    exact Nat.lt_of_lt_of_le (by decide) h1

theorem burstStart_cycleOk (b : Block) : (burstStart b).2.CycleOk 1 := by
  obtain ⟨h1, h2⟩ := pe_pitch_range b.hist.at
  rw [burstStart_eq]
  have harmed := arm_cycleOk { b with pbuf := b.hist } h1 h2
  have hstitched : (stitch (arm { b with pbuf := b.hist } (pe b.hist.at))).CycleOk 1 := harmed.of_eq rfl rfl rfl rfl
  exact extract_cycleOk hstitched (by decide) 80

/-- The short extension widens the window by one pitch (R114). -/
theorem shortExtension_cycleOk {b : Block} {n : Nat} (h : b.CycleOk n) (hn : n ≤ 2) (e : Nat) :
    (shortExtension b e).2.CycleOk (n + 1) := by
  have hpitch := h.pitch_le
  have hsum : (b.cycleLen + b.pitch).toNat = b.pitch.toNat * (n + 1) := by
    have hlen := Nat.mul_le_mul hpitch hn
    rw [BitVec.toNat_add, h.cycleLen_eq, Nat.mul_succ]
    exact Nat.mod_eq_of_lt (by omega)
  have hextended : (stitch { b with cycleLen := b.cycleLen + b.pitch }).CycleOk (n + 1) := by
    refine ⟨h.pitch_ge, hpitch, h.overlap_eq, hsum, ?_⟩
    calc b.offset.toNat < b.pitch.toNat * n := h.cycleLen_eq ▸ h.offset_lt
      _ ≤ b.pitch.toNat * (n + 1) := Nat.mul_le_mul_left _ n.le_succ
      _ = (b.cycleLen + b.pitch).toNat := hsum.symm
  exact extract_cycleOk hextended (by omega) 80

/-- From a consistent engine the synthesis leaves the window that `cons` asks at the next count. -/
theorem synthesize_cycleOk {b : Block} (h : b.EngineOk) :
    (synthesize b b.eraseCnt.toNat).2.CycleOk (min (b.eraseCnt.toNat + 1) 3) := by
  obtain h0 | hcons := h
  · rw [h0]
    exact burstStart_cycleOk b
  · have hcycle := (cons_iff_cycleOk b).mp hcons
    generalize b.eraseCnt.toNat = e at hcycle ⊢
    obtain rfl | ⟨h1, h2⟩ | ⟨h3, h5⟩ | h6 : e = 0 ∨ (1 ≤ e ∧ e ≤ 2) ∨ (3 ≤ e ∧ e ≤ 5) ∨ 6 ≤ e := by omega
    · exact burstStart_cycleOk b
    · rw [Nat.min_eq_left (by omega)] at hcycle ⊢
      rw [synthesize_short b h1 h2]
      exact shortExtension_cycleOk hcycle h2 e
    · rw [Nat.min_eq_right (by omega)] at hcycle ⊢
      rw [synthesize_steady b h3 h5]
      exact extract_cycleOk hcycle (by decide) 80
    · rw [Nat.min_eq_right (by omega)] at hcycle ⊢
      rw [synthesize_mute b h6]
      exact hcycle

theorem frameLost_cycleOk {b : Block} (h : b.EngineOk) : (frameLost b).CycleOk (min (b.eraseCnt.toNat + 1) 3) :=
  (synthesize_cycleOk h).of_eq rfl rfl rfl rfl

/-! ### O47: the engine stays consistent -/

@[simp] theorem frameLost_eraseCnt (b : Block) : (frameLost b).eraseCnt = sat32 (b.eraseCnt.toNat + 1) := rfl

theorem frameGood_eraseCnt (b : Block) : (frameGood b).eraseCnt = 0 := by
  by_cases he : b.eraseCnt.toNat = 0
  · rw [frameGood_of_idle he]
    exact BitVec.eq_of_toNat_eq he
  · rw [frameGood_of_burst he]
    rfl

/-- A lost frame leaves a consistent burst; the saturated count stays above 3, where `cons` is blind to it (R117). -/
theorem frameLost_cons {b : Block} (h : b.EngineOk) : (frameLost b).Cons := by
  have hcount : min (frameLost b).eraseCnt.toNat 3 = min (b.eraseCnt.toNat + 1) 3 := by
    rw [frameLost_eraseCnt, sat32_toNat]
    omega
  rw [cons_iff_cycleOk, hcount]
  exact frameLost_cycleOk h

/-- The estimator's own registers are none that `cons` reads (R45, R101). -/
theorem writePE_engineOk {b : Block} (h : b.EngineOk) (r : PEResult) : (writePE b r).EngineOk := h

theorem execBlk_engineOk {b : Block} (h : b.EngineOk) (i : Instr) : (execBlk i b).EngineOk := by
  cases i with
  | nop => exact h
  | frameGood => exact Or.inl (frameGood_eraseCnt b)
  | frameLost => exact Or.inr (frameLost_cons h)
  | peRun => exact writePE_engineOk h _
  | snap => exact h

theorem reset_engineOk : Block.reset.EngineOk := Or.inl rfl

/-- Settles O47, by the cases of a step as the registers see it. -/
theorem engineStaysConsistent : Obligations.EngineStaysConsistent := by
  intro s t h hstep
  obtain ⟨_, e⟩ | ⟨w, i, _, _, _, e⟩ | e := step_regs_cases hstep
  · rw [e]
    exact reset_engineOk
  · rw [e]
    exact execBlk_engineOk h i
  · exact (engineOk_congr e).mpr h

/-! ### What the frame commands leave unchanged (R119, R123, R124) -/

/-- PUSH pushes its frame, whatever else has changed before it (R123, R124). -/
theorem framePushed_push {b b' : Block} (h : b'.hist = b.hist) (f : Nat → Sample) : FramePushed b (push b' f) f := by
  refine ⟨fun k hk => ?_, fun i hi => ?_, fun i hi => ?_⟩
  · rw [push_hist, shiftIn_get, if_pos (by omega), if_pos hk, h]
  · rw [push_hist, shiftIn_get, if_pos (by omega), if_neg (by omega), Nat.add_sub_cancel_left]
  · rw [push_fout, outputTap_get, if_pos hi, push_hist]

/-- After burst start a synthesis leaves the pitch, its overlap, the captured tail and the PE results (R114 to R116). -/
theorem synthesize_burst_frame (b : Block) {e : Nat} (h : e ≠ 0) :
    (synthesize b e).2.pitch = b.pitch ∧ (synthesize b e).2.overlap = b.overlap
      ∧ (synthesize b e).2.lastq = b.lastq ∧ (synthesize b e).2.pePitch = b.pePitch
      ∧ (synthesize b e).2.peCoarseLag = b.peCoarseLag ∧ (synthesize b e).2.peLag = b.peLag
      ∧ (synthesize b e).2.peCorr = b.peCorr ∧ (synthesize b e).2.peEnergy = b.peEnergy := by
  obtain ⟨h1, h2⟩ | ⟨h3, h5⟩ | h6 : (1 ≤ e ∧ e ≤ 2) ∨ (3 ≤ e ∧ e ≤ 5) ∨ 6 ≤ e := by omega
  · rw [synthesize_short b h1 h2]
    exact ⟨rfl, rfl, rfl, rfl, rfl, rfl, rfl, rfl⟩
  · rw [synthesize_steady b h3 h5]
    exact ⟨rfl, rfl, rfl, rfl, rfl, rfl, rfl, rfl⟩
  · rw [synthesize_mute b h6]
    exact ⟨rfl, rfl, rfl, rfl, rfl, rfl, rfl, rfl⟩

/-- A lost frame leaves `FIN`, the error record and `PEND`. -/
theorem frameLost_frame (b : Block) :
    (frameLost b).fin = b.fin ∧ (frameLost b).err = b.err ∧ (frameLost b).errCode = b.errCode
      ∧ (frameLost b).pend = b.pend := by
  obtain ⟨_, hfin, _, _, herr, hcode, hpend⟩ := synthesize_frame b b.eraseCnt.toNat
  exact ⟨hfin, herr, hcode, hpend⟩

/-- A good frame changes `HIST`, `FOUT`, `ERASE_CNT` and `OFFSET` only (R119). -/
theorem frameGood_frame (b : Block) :
    frameGood b = { b with
      hist := (frameGood b).hist, fout := (frameGood b).fout
      eraseCnt := (frameGood b).eraseCnt, offset := (frameGood b).offset } := by
  by_cases he : b.eraseCnt.toNat = 0
  · rw [frameGood_of_idle he]
    rfl
  · rw [frameGood_of_burst he]
    rfl

theorem eraseCnt_toNat_ne_zero {b : Block} (h : b.eraseCnt ≠ 0) : b.eraseCnt.toNat ≠ 0 :=
  fun h0 => h (BitVec.eq_of_toNat_eq h0)

theorem frameLost_framePushed (b : Block) : ∃ f, FramePushed b (frameLost b) f :=
  ⟨_, framePushed_push (synthesize_frame b b.eraseCnt.toNat).1 _⟩

theorem frameGood_framePushed (b : Block) : ∃ f, FramePushed b (frameGood b) f := by
  by_cases he : b.eraseCnt.toNat = 0
  · rw [frameGood_of_idle he]
    exact ⟨_, framePushed_push rfl _⟩
  · rw [frameGood_of_burst he]
    exact ⟨_, framePushed_push rfl _⟩

/-- Settles O30, by the frames of the two commands. -/
theorem frameCommandsKeepTheRest : Obligations.FrameCommandsKeepTheRest := by
  intro s
  constructor
  · obtain ⟨f, hpush⟩ := frameLost_framePushed s.blk
    obtain ⟨hfin, herr, hcode, hpend⟩ := frameLost_frame s.blk
    refine ⟨_, f, exec_eq .frameLost s, hpush, ?_, fun he => ?_⟩
    · rw [← hfin, ← herr, ← hcode, ← hpend]
      rfl
    · exact synthesize_burst_frame s.blk (eraseCnt_toNat_ne_zero he)
  · obtain ⟨f, hpush⟩ := frameGood_framePushed s.blk
    exact ⟨_, f, exec_eq .frameGood s, hpush, congrArg s.withBlk (frameGood_frame s.blk)⟩

/-! ### O48: the registers stay legal -/

/-- The estimator's results are legal values of the PE registers, in whatever block they stand (R92, R95, R101). -/
theorem peRegsLegal_of_pe {b : Block} {x : Nat → Int} (hp : b.pePitch = BitVec.ofNat 32 (pe x).pitch)
    (hc : b.peCoarseLag = BitVec.ofNat 32 (pe x).coarse) (hl : b.peLag = BitVec.ofNat 32 (pe x).lag) :
    b.PeRegsLegal := by
  obtain ⟨heven, hcoarse⟩ := pe_coarse_range x
  obtain ⟨_, hlag, _⟩ := pe_lag_range x
  have hp' : b.pePitch.toNat = (pe x).pitch := hp ▸ toNat_ofNat_of_le (pe_pitch_range x).2
  have hc' : b.peCoarseLag.toNat = (pe x).coarse := hc ▸ toNat_ofNat_of_le (by omega)
  have hl' : b.peLag.toNat = (pe x).lag := hl ▸ toNat_ofNat_of_le (by omega)
  refine ⟨hc' ▸ hcoarse, hc' ▸ heven, hl' ▸ hlag, Or.inr ?_⟩
  rw [hp', hl', pe_pitch_eq]

theorem frameLost_peRegsLegal {b : Block} (h : b.PeRegsLegal) : (frameLost b).PeRegsLegal := by
  rw [frameLost_eq]
  by_cases he : b.eraseCnt.toNat = 0
  · rw [he, synthesize_zero, burstStart_eq]
    exact peRegsLegal_of_pe (x := b.hist.at) rfl rfl rfl
  · obtain ⟨_, _, _, hp, hc, hl, _⟩ := synthesize_burst_frame b he
    simpa only [Block.PeRegsLegal, push_pePitch, push_peCoarseLag, push_peLag, hp, hc, hl] using h

theorem frameLost_burstRegsLegal {b : Block} (h : b.EngineOk) : (frameLost b).BurstRegsLegal :=
  (frameLost_cycleOk h).burstRegsLegal (by omega) (by omega)

/-- Recovery moves the cursor inside the burst's window; between bursts no register changes (R119). -/
theorem frameGood_burstRegsLegal {b : Block} (hok : b.EngineOk) (h : b.BurstRegsLegal) :
    (frameGood b).BurstRegsLegal := by
  by_cases he : b.eraseCnt.toNat = 0
  · rw [frameGood_of_idle he]
    exact h
  · have hcons : b.Cons := hok.resolve_left fun h0 => he (by rw [h0]; rfl)
    have hcycle := extract_cycleOk ((cons_iff_cycleOk b).mp hcons) (by omega)
      (recoveryLen b.overlap.toNat b.eraseCnt.toNat)
    rw [frameGood_of_burst he]
    exact hcycle.burstRegsLegal (by omega) (by omega)

theorem writePE_burstRegsLegal {b : Block} (h : b.BurstRegsLegal) (r : PEResult) : (writePE b r).BurstRegsLegal := h

theorem frameGood_peRegsLegal {b : Block} (h : b.PeRegsLegal) : (frameGood b).PeRegsLegal := by
  rw [frameGood_frame]
  exact h

theorem execBlk_burstRegsLegal {b : Block} (hok : b.EngineOk) (h : b.BurstRegsLegal) (i : Instr) :
    (execBlk i b).BurstRegsLegal := by
  cases i with
  | nop => exact h
  | frameGood => exact frameGood_burstRegsLegal hok h
  | frameLost => exact frameLost_burstRegsLegal hok
  | peRun => exact writePE_burstRegsLegal h _
  | snap => exact h

theorem execBlk_peRegsLegal {b : Block} (h : b.PeRegsLegal) (i : Instr) : (execBlk i b).PeRegsLegal := by
  cases i with
  | nop => exact h
  | frameGood => exact frameGood_peRegsLegal h
  | frameLost => exact frameLost_peRegsLegal h
  | peRun => exact peRegsLegal_of_pe (x := b.pbufAt) rfl rfl rfl
  | snap => exact h

theorem reset_burstRegsLegal : Block.reset.BurstRegsLegal := by decide
theorem reset_peRegsLegal : Block.reset.PeRegsLegal := by decide

/-- Settles O48, by the cases of a step as the registers see it. -/
theorem registersStayLegal : Obligations.RegistersStayLegal := by
  intro s t hok hburst hpe hstep
  obtain ⟨_, e⟩ | ⟨w, i, _, _, _, e⟩ | e := step_regs_cases hstep
  · rw [e]
    exact ⟨reset_burstRegsLegal, reset_peRegsLegal⟩
  · rw [e]
    exact ⟨execBlk_burstRegsLegal hok hburst i, execBlk_peRegsLegal hpe i⟩
  · exact ⟨(burstRegsLegal_congr e).mpr hburst, (peRegsLegal_congr e).mpr hpe⟩

/-! ### O50, O51: the pending command stays valid and completes (R42, R73, R74, R76) -/

theorem pendOk_of_none {b : Block} (h : b.pend = none) : b.PendOk := by
  intro w hw
  rw [h] at hw
  cases hw

/-- Validity is a matter of `PEND` and the registers (R75). -/
theorem pendOk_of_eq {b b' : Block} (h : b.PendOk) (hpend : b'.pend = b.pend) (hregs : b'.regs = b.regs) :
    b'.PendOk := by
  intro w hw
  rw [hpend] at hw
  exact (validate_congr_regs hregs w).trans (h w hw)

@[simp] theorem withMem_pend (b : Block) (g : Region) (m : Memory) : (b.withMem g m).pend = b.pend := by
  cases g <;> rfl

/-- A write of `CMD` puts a validated word into `PEND`; no other write puts a word there or moves a register. -/
theorem memWrite_pendOk {b : Block} (h : b.PendOk) (a : BusAddr) (w : Word) : (memWrite b a w).PendOk := by
  obtain ⟨c, e⟩ | ⟨_, _, e⟩ | ⟨_, _, e⟩ | ⟨_, _, hv, e⟩ | ⟨g, k, _, _, _, _, _, e⟩ | e := memWrite_cases b a w
  all_goals rw [e]
  · exact pendOk_of_eq h (raiseError_pend b c) (raiseError_regs b c)
  · exact pendOk_of_none rfl
  · exact pendOk_of_eq h rfl rfl
  · rintro w' ⟨rfl⟩
    exact (validate_congr_regs rfl w).trans hv
  · exact pendOk_of_eq h (withMem_pend b g _) (withMem_regs b g _)
  · exact h

theorem memRead_pendOk {s : State} (h : s.blk.PendOk) (a : BusAddr) : (memRead s a).blk.PendOk := by
  rw [memRead_blk]
  split
  · exact pendOk_of_eq h (raiseError_pend _ _) (raiseError_regs _ _)
  · exact h

theorem reset_pendOk : Block.reset.PendOk := pendOk_of_none rfl

/-- Settles O50, by the cases of a step: a completion and a reset leave nothing pending. -/
theorem pendingStaysValidated : Obligations.PendingStaysValidated := by
  intro s t h hstep
  obtain ⟨_, rfl⟩ | ⟨_, _, rfl⟩ | ⟨w, i, _, _, _, rfl⟩ | ⟨a, _, _, _, rfl⟩ | ⟨a, w, _, _, _, rfl⟩ | ⟨_, _, _, rfl⟩
    | ⟨_, _, _, rfl⟩ := step_cases hstep
  · rw [popTurn_blk, heldTurn_blk]
    exact reset_pendOk
  · exact h
  · exact pendOk_of_none rfl
  · exact memRead_pendOk h a
  · exact memWrite_pendOk h a w
  · exact reset_pendOk
  · exact h

/-- A host's turn and a turn of the reset input always have a next state. -/
theorem step_of_not_engineNext {s : State} (hr : s.inReset = false) (he : s.engineNext = false) :
    step s = .next (hostTurn s s.headTurn).popTurn := by
  simp only [State.engineNext, hr, State.headTurn] at he
  unfold step State.headTurn
  rw [if_neg (by simp [hr])]
  cases hts : s.turns with
  | nil => simp [hts] at he
  | cons u ts =>
    cases u with
    | engine => simp [hts] at he
    | read a => rfl
    | write a w => rfl
    | reset => rfl
    | release => rfl

/-- The engine's step answers a next state wherever the pending word is a command. -/
theorem engineTurn_of_pendOk {s : State} (h : s.blk.PendOk) : ∃ t, engineTurn s = .next t := by
  cases hp : s.blk.pend with
  | none => exact ⟨_, engineTurn_idle hp⟩
  | some w =>
    obtain ⟨i, hd⟩ := decode_of_validate_none (h w hp)
    exact ⟨_, by rw [engineTurn_pend hp hd, exec_eq]⟩

/-- Settles O51, by whose turn it is. -/
theorem validMachineNeverStops : Obligations.ValidMachineNeverStops := by
  intro s h
  cases hr : s.inReset with
  | true => exact ⟨_, step_inReset hr⟩
  | false =>
    cases he : s.engineNext with
    | true => exact step_engineNext he ▸ engineTurn_of_pendOk h
    | false => exact ⟨_, step_of_not_engineNext hr he⟩

/-! ### O52: the error code follows the flag (R24, R133) -/

/-- Both fields of the error record decide the invariant. -/
theorem errOk_congr {b b' : Block} (herr : b'.err = b.err) (hcode : b'.errCode = b.errCode) : b'.ErrOk ↔ b.ErrOk := by
  simp only [Block.ErrOk, herr, hcode]

/-- Raising keeps the first error's code or records its own, which is never 0 (R134). -/
theorem raiseError_errOk {b : Block} (h : b.ErrOk) {c : ErrCode} (hc : c ≠ .noError) : (raiseError b c).ErrOk := by
  cases he : b.err with
  | true => rwa [raiseError_of_set he]
  | false =>
    rw [raiseError_of_clear he]
    simpa [Block.ErrOk] using hc

/-- A failed check of validation has a code of its own (R75). -/
theorem validate_ne_noError {b : Block} {w : Word} {c : ErrCode} (h : validate b w = some c) : c ≠ .noError := by
  rintro rfl
  unfold validate at h
  split at h
  · cases h
  · split at h <;> cases h
  · split at h <;> cases h
  · split at h <;> cases h
  · cases h
  · cases h

theorem accept_errOk {b : Block} (h : b.ErrOk) (w : Word) : (accept b w).ErrOk := by
  obtain ⟨c, hv, e⟩ | ⟨_, e⟩ := accept_cases b w
  · rw [e]
    exact raiseError_errOk h (validate_ne_noError hv)
  · rw [e]
    exact h

theorem storeSample_errOk {b : Block} (h : b.ErrOk) (g : Region) (k : Nat) (w : Word) :
    (storeSample b g k w).ErrOk := by
  unfold storeSample
  split
  · cases g <;> exact h
  · exact raiseError_errOk h (by decide)

theorem idleWrite_errOk {b : Block} (h : b.ErrOk) (u : Target) (w : Word) : (idleWrite b u w).ErrOk := by
  unfold idleWrite
  split
  · exact h
  · exact accept_errOk h w
  · exact h
  · exact h
  · split
    · exact raiseError_errOk h (by decide)
    · exact storeSample_errOk h _ _ w

theorem reset_errOk : Block.reset.ErrOk := by decide
theorem clearError_errOk (b : Block) : (clearError b).ErrOk := by simp [Block.ErrOk]

theorem memWrite_errOk {b : Block} (h : b.ErrOk) (a : BusAddr) (w : Word) : (memWrite b a w).ErrOk := by
  unfold memWrite
  split
  · exact raiseError_errOk h (by decide)
  · split
    · exact reset_errOk
    · exact h
  · split
    · exact clearError_errOk b
    · exact h
  · split
    · exact raiseError_errOk h (by decide)
    · exact idleWrite_errOk h _ w

theorem memRead_errOk {s : State} (h : s.blk.ErrOk) (a : BusAddr) : (memRead s a).blk.ErrOk := by
  rw [memRead_blk]
  split
  · exact raiseError_errOk h (by decide)
  · exact h

/-- No command touches the error record (R137). -/
theorem execBlk_errorRecord (i : Instr) (b : Block) :
    (execBlk i b).err = b.err ∧ (execBlk i b).errCode = b.errCode := by
  cases i with
  | nop => exact ⟨rfl, rfl⟩
  | frameGood =>
    rw [execBlk, frameGood_frame]
    exact ⟨rfl, rfl⟩
  | frameLost =>
    obtain ⟨_, herr, hcode, _⟩ := frameLost_frame b
    exact ⟨herr, hcode⟩
  | peRun => exact ⟨writePE_err _ _, writePE_errCode _ _⟩
  | snap => exact ⟨rfl, rfl⟩

/-- Settles O52, by the cases of a step. -/
theorem errorCodeFollowsErrorFlag : Obligations.ErrorCodeFollowsErrorFlag := by
  intro s t h hstep
  obtain ⟨_, rfl⟩ | ⟨_, _, rfl⟩ | ⟨w, i, _, _, _, rfl⟩ | ⟨a, _, _, _, rfl⟩ | ⟨a, w, _, _, _, rfl⟩ | ⟨_, _, _, rfl⟩
    | ⟨_, _, _, rfl⟩ := step_cases hstep
  · rw [popTurn_blk, heldTurn_blk]
    exact reset_errOk
  · exact h
  · obtain ⟨herr, hcode⟩ := execBlk_errorRecord i s.blk
    exact (errOk_congr herr hcode).mpr h
  · exact memRead_errOk h a
  · exact memWrite_errOk h a w
  · exact reset_errOk
  · exact h

/-! ### O53, O54: who writes the count and the memories (R25, R37 to R41, R155) -/

/-- Only the frame commands write `ERASE_CNT`, `HIST`, `FOUT` and `LASTQ` (R80, R101, R126). -/
theorem execBlk_keeps_of_not_frame {i : Instr} (hgood : i ≠ .frameGood) (hlost : i ≠ .frameLost) (b : Block) :
    (execBlk i b).eraseCnt = b.eraseCnt ∧ (execBlk i b).hist = b.hist ∧ (execBlk i b).fout = b.fout
      ∧ (execBlk i b).lastq = b.lastq := by
  cases i with
  | nop => exact ⟨rfl, rfl, rfl, rfl⟩
  | frameGood => exact absurd rfl hgood
  | frameLost => exact absurd rfl hlost
  | peRun => exact ⟨writePE_eraseCnt _ _, writePE_hist _ _, writePE_fout _ _, writePE_lastq _ _⟩
  | snap => exact ⟨rfl, rfl, rfl, rfl⟩

/-- No command writes `FIN` (R37). -/
theorem execBlk_fin (i : Instr) (b : Block) : (execBlk i b).fin = b.fin := by
  cases i with
  | nop => rfl
  | frameGood => rw [execBlk, frameGood_frame]
  | frameLost => exact (frameLost_frame b).1
  | peRun => exact writePE_fin _ _
  | snap => rfl

/-- Settles O53, by the cases of a step as the registers see it. -/
theorem onlyFramesAndResetsCountErasures : Obligations.OnlyFramesAndResetsCountErasures := by
  intro s t hstep hne
  obtain ⟨hreset, _⟩ | ⟨w, i, he, hp, hd, e⟩ | e := step_regs_cases hstep
  · exact Or.inr hreset
  · refine Or.inl ⟨he, ?_⟩
    by_contra hframe
    obtain ⟨h1, h2⟩ := not_or.mp hframe
    obtain ⟨hgood, hlost⟩ := not_frame_of_decode hd (fun hw => h1 (hw ▸ hp)) (fun hw => h2 (hw ▸ hp))
    rw [e] at hne
    exact hne (execBlk_keeps_of_not_frame hgood hlost s.blk).1
  · exact absurd (congrArg Regs.eraseCnt e) hne

@[simp] theorem raiseError_mem (b : Block) (c : ErrCode) (g : Region) : (raiseError b c).mem g = b.mem g := by
  cases g <;> simp [Block.mem]

theorem memRead_mem (s : State) (a : BusAddr) (g : Region) : (memRead s a).blk.mem g = s.blk.mem g := by
  rw [memRead_blk]
  split
  · exact raiseError_mem _ _ g
  · rfl

/-- The host writes `FOUT` never and the frozen memories not during a burst (R38, R53 steps 6 and 7). -/
theorem memWrite_mem_of_closed {b : Block} {a : BusAddr} {w : Word} {g : Region}
    (hres : (Turn.write a w).resets = false) (hg : g = .fout ∨ g.frozenInBurst = true ∧ b.eraseCnt ≠ 0) :
    (memWrite b a w).mem g = b.mem g := by
  obtain ⟨c, e⟩ | ⟨ha, hw, _⟩ | ⟨_, _, e⟩ | ⟨_, _, _, e⟩ | ⟨g', k, _, _, hfout, hfrozen, _, e⟩ | e :=
    memWrite_cases b a w
  · rw [e, raiseError_mem]
  · rw [resets_of_ctrl ha hw] at hres
    cases hres
  · rw [e]
    cases g <;> rfl
  · rw [e]
    cases g <;> rfl
  · have hne : g ≠ g' := by
      rintro rfl
      obtain hg | ⟨hg, he⟩ := hg
      · exact hfout hg
      · exact he (hfrozen hg)
    rw [e, Block.mem_withMem_ne b _ hne]
  · rw [e]

/-- A memory closed to the host changes at no turn of the host. -/
theorem step_mem_of_closed {s t : State} {g : Region} (hr : s.inReset = false) (hstep : step s = .next t)
    (hres : ∀ u ∈ s.turns.head?, u.resets = false) (he : s.engineNext = false)
    (hg : g = .fout ∨ g.frozenInBurst = true ∧ s.blk.eraseCnt ≠ 0) : t.blk.mem g = s.blk.mem g := by
  obtain ⟨h, _⟩ | ⟨h, _, _⟩ | ⟨w, i, h, _, _, _⟩ | ⟨a, _, _, _, rfl⟩ | ⟨a, w, ts, _, hts, rfl⟩ | ⟨ts, _, hts, _⟩
    | ⟨_, _, _, rfl⟩ := step_cases hstep
  · simp [hr] at h
  · simp [he] at h
  · simp [he] at h
  · exact memRead_mem s a g
  · exact memWrite_mem_of_closed (hres _ (by simp [hts])) hg
  · have hreset := hres .reset (by simp [hts])
    cases hreset
  · rfl

/-- Settles O54: the engine's turn completes a command or changes no memory, and the host's turns keep the memories
closed to them. -/
theorem memoriesHaveTheirWriters : Obligations.MemoriesHaveTheirWriters := by
  intro s t hr hstep hres
  constructor
  · intro he
    rw [step_engineNext he] at hstep
    obtain ⟨_, rfl⟩ | ⟨w, i, hp, hd, rfl⟩ := engineTurn_cases hstep
    · exact ⟨rfl, fun _ _ => ⟨rfl, rfl, rfl⟩⟩
    · refine ⟨execBlk_fin i s.blk, fun h1 h2 => ?_⟩
      obtain ⟨hgood, hlost⟩ := not_frame_of_decode hd (fun hw => h1 (hw ▸ hp)) (fun hw => h2 (hw ▸ hp))
      exact (execBlk_keeps_of_not_frame hgood hlost s.blk).2
  · intro he
    refine ⟨step_mem_of_closed (g := .fout) hr hstep hres he (Or.inl rfl), fun hcnt => ⟨?_, ?_⟩⟩
    · exact step_mem_of_closed (g := .pbuf) hr hstep hres he (Or.inr ⟨rfl, hcnt⟩)
    · exact step_mem_of_closed (g := .lastq) hr hstep hres he (Or.inr ⟨rfl, hcnt⟩)

/-! ### O40: the status word and its clear (R24) -/

theorem memWrite_of_ctrl {a : BusAddr} (h : decodeAddr a = .reg .ctrl) (b : Block) (w : Word) :
    memWrite b a w = if w.getLsbD 0 then Block.reset else b := by
  simp only [memWrite, h, softReset_eq]

theorem memWrite_of_status {a : BusAddr} (h : decodeAddr a = .reg .status) (b : Block) (w : Word) :
    memWrite b a w = if w.getLsbD 1 then clearError b else b := by
  simp only [memWrite, h]

theorem decodeAddr_ctrl : decodeAddr 0x004 = .reg .ctrl := by decide
theorem decodeAddr_status : decodeAddr 0x00C = .reg .status := by decide

theorem statusWord_busy (b : Block) : (statusWord b).getLsbD 0 = b.pend.isSome := by
  rw [statusWord, BitVec.getLsbD_append, if_pos (by decide), BitVec.getLsbD_ofBool]
  simp [Block.busy]

theorem statusWord_err (b : Block) : (statusWord b).getLsbD 1 = b.err := by
  rw [statusWord, BitVec.getLsbD_append, if_neg (by decide), BitVec.getLsbD_append, if_pos (by decide),
    BitVec.getLsbD_ofBool]
  simp

theorem statusWord_reserved_low (b : Block) : (statusWord b).extractLsb' 2 2 = 0 := by
  rw [statusWord, BitVec.extractLsb'_append_eq_of_le (by decide), BitVec.extractLsb'_append_eq_of_le (by decide)]
  exact BitVec.extractLsb'_append_eq_right

theorem statusWord_errCode (b : Block) : (statusWord b).extractLsb' 4 4 = b.errCode.code := by
  rw [statusWord, BitVec.extractLsb'_append_eq_of_le (by decide), BitVec.extractLsb'_append_eq_of_le (by decide),
    BitVec.extractLsb'_append_eq_of_le (by decide)]
  exact BitVec.extractLsb'_append_eq_right

theorem statusWord_reserved_high (b : Block) : (statusWord b).extractLsb' 8 24 = 0 := by
  rw [statusWord, BitVec.extractLsb'_append_eq_of_le (by decide), BitVec.extractLsb'_append_eq_of_le (by decide),
    BitVec.extractLsb'_append_eq_of_le (by decide), BitVec.extractLsb'_append_eq_of_le (by decide)]
  exact BitVec.extractLsb'_eq_self

/-- Settles O40, field by field, and by the two outcomes of a write. -/
theorem statusWordAndItsClear : Obligations.StatusWordAndItsClear := by
  intro b w
  refine ⟨statusWord_busy b, statusWord_err b, statusWord_reserved_low b, statusWord_errCode b,
    statusWord_reserved_high b, rfl, rfl, rfl, rfl, rfl, rfl, rfl, fun hw => ?_, fun hw => ?_⟩
  · rw [memWrite_of_status decodeAddr_status, if_pos hw, clearError]
  · rw [memWrite_of_status decodeAddr_status, if_neg (ne_true_of_eq_false hw)]

/-! ### O42: the idle reads (R25 to R36, R52) -/

/-- An idle read of a register returns its value and changes nothing (R52). -/
theorem memRead_reg_idle {s : State} {a : BusAddr} {r : Reg} (ha : decodeAddr a = .reg r) (hp : s.blk.pend = none) :
    memRead s a = { s with rdata := some (regValue s.blk r) } := by
  have hv : readValue s.blk (.reg r) = some (regValue s.blk r) := by simp [readValue, Block.busy, hp]
  simp only [memRead, ha, hv, reduceCtorEq, if_false]

/-- The halves of a 64-bit result put together are the result (R35, R36). -/
theorem halves_append (x : DWord) : x.extractLsb' 32 32 ++ x.extractLsb' 0 32 = x := by
  rw [BitVec.extractLsb'_append_extractLsb'_eq_extractLsb' (Nat.zero_add 32).symm]
  exact BitVec.extractLsb'_eq_self

/-- `BUF_START` is 390 less `CYCLE_LEN`, wrapped at 32 bits (R30). -/
theorem regValue_bufStart_toInt (b : Block) :
    (regValue b .bufStart).toInt = (390 - (b.cycleLen.toNat : Int)).bmod (2 ^ 32) := by
  have h390 : (BitVec.ofNat 32 390).toInt = 390 := by decide
  rw [regValue, BitVec.toInt_sub, Config.HISTORY_LEN, h390, BitVec.toInt_eq_toNat_bmod, Int.sub_bmod_bmod]

/-- Settles O42. -/
theorem idleRegisterReads : Obligations.IdleRegisterReads := by
  intro s a r ha hp
  exact ⟨memRead_reg_idle ha hp, rfl, rfl, rfl, rfl, rfl, rfl, rfl, rfl, regValue_bufStart_toInt s.blk, rfl,
    halves_append _, halves_append _⟩

/-! ### O45, O46, O58: the reset (R47, R147, R148) -/

theorem step_of_reset {s : State} {ts : List Turn} (hr : s.inReset = false) (hts : s.turns = .reset :: ts) :
    step s = .next { s with blk := Block.reset, inReset := true, turns := ts } := by
  have he : s.engineNext = false := by simp [State.engineNext, State.headTurn, hts]
  rw [step_of_not_engineNext hr he]
  simp [State.headTurn, hts, hostTurn, assertReset, State.withBlk, State.popTurn]

theorem step_of_release {s : State} {ts : List Turn} (hr : s.inReset = true) (hts : s.turns = .release :: ts) :
    step s = .next { s with blk := Block.reset, inReset := false, turns := ts } := by
  rw [step_inReset hr]
  simp [State.headTurn, hts, heldTurn, State.withBlk, State.popTurn]

/-- Settles O45. -/
theorem resetValues : Obligations.ResetValues := by
  refine ⟨fun k => ⟨rfl, rfl, rfl, rfl, rfl⟩, rfl, rfl, rfl, rfl, rfl, rfl, rfl, rfl, rfl, rfl, rfl, rfl, rfl, ?_, ?_,
    rfl, rfl, rfl, fun s ts => step_of_reset, fun s ts => step_of_release, fun c w hw => ?_⟩
  · exact statusWord_busy _
  · decide
  · rw [memWrite_of_ctrl decodeAddr_ctrl, if_pos hw]
    rfl

/-- Settles O46. -/
theorem resetMeetsTheInvariants : Obligations.ResetMeetsTheInvariants :=
  ⟨reset_engineOk, reset_burstRegsLegal, reset_peRegsLegal, reset_memWf, reset_pendOk, reset_errOk⟩

/-- Any turn but the engine's heads the list when it is due. -/
theorem headTurn_eq_iff {u : Turn} (hu : u ≠ .engine) (s : State) : s.headTurn = u ↔ s.turns.head? = some u := by
  unfold State.headTurn
  cases s.turns.head? with
  | none => simp [hu.symm]
  | some v => simp

/-- Under reset only a read touches the word the host holds, and it is not answered (R147). -/
theorem heldTurn_rdata_of_ne_read (s : State) {u : Turn} (h : ∀ a, u ≠ .read a) : (heldTurn s u).rdata = s.rdata := by
  cases u with
  | read a => exact absurd rfl (h a)
  | engine => rfl
  | write a w => rfl
  | reset => rfl
  | release => rfl

/-- Nothing but the held input and its assertion leaves the machine under reset, and both leave the reset values. -/
theorem blk_eq_reset_of_step {s t : State} (hstep : step s = .next t) (ht : t.inReset = true) :
    t.blk = Block.reset := by
  obtain ⟨_, rfl⟩ | ⟨he, _, rfl⟩ | ⟨w, i, he, _, _, rfl⟩ | ⟨a, _, hr, _, rfl⟩ | ⟨a, w, _, hr, _, rfl⟩ | ⟨_, _, _, rfl⟩
    | ⟨_, hr, _, rfl⟩ := step_cases hstep
  · rw [popTurn_blk, heldTurn_blk]
  · have hr := ((engineNext_iff s).mp he).1
    simp [hr] at ht
  · have hr := ((engineNext_iff s).mp he).1
    simp [hr] at ht
  · simp [hr] at ht
  · simp [hr] at ht
  · rfl
  · simp [hr] at ht

/-- Settles O58: a step under reset is the held turn, whatever turn is due. -/
theorem assertedResetHoldsTheBlock : Obligations.AssertedResetHoldsTheBlock := by
  refine ⟨fun s hr => ⟨_, step_inReset hr, ?_, ?_, ?_, ?_, fun a ha => ?_, fun h => ?_⟩,
    fun s t => blk_eq_reset_of_step⟩
  · rw [popTurn_blk, heldTurn_blk]
  · rw [popTurn_turns, heldTurn_turns]
  · rw [popTurn_draws, heldTurn_draws]
  · rw [popTurn_inReset, heldTurn_inReset, ← headTurn_eq_iff (by decide), hr]
    simp
  · rw [(headTurn_eq_iff (by simp) s).mpr ha]
    rfl
  · rw [popTurn_rdata, heldTurn_rdata_of_ne_read]
    exact fun a ha => h a ((headTurn_eq_iff (by simp) s).mp ha)

end Sys2Proof.Machine

/-! The family of statements about the bus and the host: what an address decodes to (R50), which words are samples
(R51), what a read and a write do (R52, R53), and that the host's accesses reach one block (R144) and do not disturb
a pending command (R152). -/

namespace Sys2Proof.Machine

/-! ### The address map (R20, R49, R50) -/

/-- In a list of all candidates of which at most one passes the test, the search finds exactly the one that does. -/
theorem find?_eq_some_iff_of_unique {α : Type} {l : List α} {p : α → Bool} (hall : ∀ x, x ∈ l)
    (huniq : ∀ x y, p x = true → p y = true → x = y) (x : α) : l.find? p = some x ↔ p x = true := by
  constructor
  · exact List.find?_some
  · intro hx
    obtain ⟨y, hy⟩ := Option.isSome_iff_exists.mp (List.find?_isSome.mpr ⟨x, hall x, hx⟩)
    rw [hy, huniq y x (List.find?_some hy) hx]

theorem Reg.mem_all (r : Reg) : r ∈ Reg.all := by cases r <;> decide

theorem Region.mem_all (g : Region) : g ∈ Region.all := by cases g <;> decide

/-- The register table gives no offset twice (R20). -/
theorem Reg.byteOffset_injective {r r' : Reg} (h : r.byteOffset = r'.byteOffset) : r = r' := by
  have htable : ∀ r ∈ Reg.all, ∀ r' ∈ Reg.all, r.byteOffset = r'.byteOffset → r = r' := by decide
  exact htable r r.mem_all r' r'.mem_all h

/-- Registers are words of the register block, which ends below the first sample memory (R20, R49). -/
theorem Reg.byteOffset_aligned_and_lt (r : Reg) : r.byteOffset % 4 = 0 ∧ r.byteOffset < 0x400 := by
  have htable : ∀ r ∈ Reg.all, r.byteOffset % 4 = 0 ∧ r.byteOffset < 0x400 := by decide
  exact htable r r.mem_all

theorem Region.base_aligned_and_ge (g : Region) : g.base % 4 = 0 ∧ 0x400 ≤ g.base := by
  have htable : ∀ g ∈ Region.all, g.base % 4 = 0 ∧ 0x400 ≤ g.base := by decide
  exact htable g g.mem_all

theorem Region.holds_iff (g : Region) (n : Nat) :
    g.holds n = true ↔ g.base ≤ n ∧ n ≤ g.base + 4 * (g.len - 1) := by
  simp only [Region.holds, Bool.and_eq_true, decide_eq_true_eq]

/-- The sample memories do not overlap in the window (R49). -/
theorem Region.eq_of_holds {g g' : Region} {n : Nat} (h : g.holds n = true) (h' : g'.holds n = true) : g = g' := by
  have hapart : ∀ g ∈ Region.all, ∀ g' ∈ Region.all,
      g = g' ∨ g.base + 4 * (g.len - 1) < g'.base ∨ g'.base + 4 * (g'.len - 1) < g.base := by decide
  rw [Region.holds_iff] at h h'
  obtain heq | hlt | hlt := hapart g g.mem_all g' g'.mem_all
  · exact heq
  · omega
  · omega

/-- The register search of R50 finds the register at its offset. -/
theorem find?_reg_eq_some_iff (n : Nat) (r : Reg) :
    Reg.all.find? (fun r => r.byteOffset == n) = some r ↔ n = r.byteOffset := by
  rw [find?_eq_some_iff_of_unique Reg.mem_all]
  · exact beq_iff_eq.trans eq_comm
  · intro x y hx hy
    exact Reg.byteOffset_injective ((beq_iff_eq.mp hx).trans (beq_iff_eq.mp hy).symm)

/-- The region search of R50 finds the region that holds the address. -/
theorem find?_region_eq_some_iff (n : Nat) (g : Region) :
    Region.all.find? (fun g => g.holds n) = some g ↔ g.holds n = true :=
  find?_eq_some_iff_of_unique Region.mem_all (fun _ _ => Region.eq_of_holds) g

theorem decodeAddr_of_misaligned {a : BusAddr} (h : a.toNat % 4 ≠ 0) : decodeAddr a = .unmapped := by
  rw [decodeAddr, if_pos h]

/-- Everything an address can decode to, with the address it then is. -/
theorem decodeAddr_cases (a : BusAddr) :
    decodeAddr a = .unmapped
      ∨ (∃ r : Reg, decodeAddr a = .reg r ∧ a.toNat = r.byteOffset)
      ∨ ∃ (g : Region) (k : Nat), decodeAddr a = .elem g k ∧ g.holds a.toNat = true ∧ a.toNat = g.base + 4 * k := by
  unfold decodeAddr
  split
  · exact Or.inl rfl
  · rename_i halign
    split
    · rename_i r hr
      exact Or.inr (Or.inl ⟨r, rfl, (find?_reg_eq_some_iff _ r).mp hr⟩)
    · split
      · rename_i g hg
        have hholds := (find?_region_eq_some_iff _ g).mp hg
        have hrange := (g.holds_iff _).mp hholds
        have hbase := g.base_aligned_and_ge
        exact Or.inr (Or.inr ⟨g, _, rfl, hholds, by omega⟩)
      · exact Or.inl rfl

/-- An address decodes to a register exactly when it is the register's offset. -/
theorem decodeAddr_eq_reg_iff (a : BusAddr) (r : Reg) : decodeAddr a = .reg r ↔ a.toNat = r.byteOffset := by
  constructor
  · intro h
    obtain h' | ⟨r', h', ha⟩ | ⟨g, k, h', _⟩ := decodeAddr_cases a
    all_goals rw [h'] at h; cases h
    exact ha
  · intro h
    have halign := r.byteOffset_aligned_and_lt
    rw [decodeAddr, if_neg (by omega), (find?_reg_eq_some_iff _ r).mpr h]

/-- An address decodes to an element exactly when it is the element's address, inside its memory. -/
theorem decodeAddr_eq_elem_iff (a : BusAddr) (g : Region) (k : Nat) :
    decodeAddr a = .elem g k ↔ a.toNat = g.base + 4 * k ∧ a.toNat ≤ g.base + 4 * (g.len - 1) := by
  constructor
  · intro h
    obtain h' | ⟨r, h', _⟩ | ⟨g', k', h', hholds, ha⟩ := decodeAddr_cases a
    all_goals rw [h'] at h; cases h
    exact ⟨ha, ((g.holds_iff _).mp hholds).2⟩
  · rintro ⟨ha, hle⟩
    have hbase := g.base_aligned_and_ge
    have hnoreg : Reg.all.find? (fun r => r.byteOffset == a.toNat) = none := by
      refine Option.eq_none_iff_forall_ne_some.mpr fun r hr => ?_
      have hoff := (find?_reg_eq_some_iff _ r).mp hr
      have hlow := r.byteOffset_aligned_and_lt
      omega
    have hregion : Region.all.find? (fun g => g.holds a.toNat) = some g :=
      (find?_region_eq_some_iff _ g).mpr ((g.holds_iff _).mpr ⟨by omega, hle⟩)
    have hindex : (a.toNat - g.base) / 4 = k := by omega
    simp only [decodeAddr, hnoreg, hregion, hindex]
    exact if_neg (by omega)

/-- What is neither a register nor an element is unmapped, and only that. -/
theorem decodeAddr_eq_unmapped_iff (a : BusAddr) :
    decodeAddr a = .unmapped ↔ (∀ r, decodeAddr a ≠ .reg r) ∧ ∀ g k, decodeAddr a ≠ .elem g k := by
  cases decodeAddr a <;> simp

/-- Settles O35: the statement's table lists every register with its offset, and its bounds are the address of each
memory's last element. -/
theorem addressMapIsExact : Obligations.AddressMapIsExact := by
  intro a
  refine ⟨decodeAddr_of_misaligned, fun r n hmem => ?_, decodeAddr_eq_elem_iff a .fin, decodeAddr_eq_elem_iff a .fout,
    decodeAddr_eq_elem_iff a .hist, decodeAddr_eq_elem_iff a .pbuf, decodeAddr_eq_elem_iff a .lastq,
    decodeAddr_eq_unmapped_iff a⟩
  have hrow : (r, n) ∈ Reg.all.map (fun r => (r, r.byteOffset)) := hmem
  obtain ⟨r', _, heq⟩ := List.mem_map.mp hrow
  cases heq
  exact decodeAddr_eq_reg_iff a r

/-! ### Sample words (R51) -/

theorem wordOfSample_toInt (v : Sample) : (wordOfSample v).toInt = v.toInt :=
  BitVec.toInt_signExtend_of_le (by decide)

/-- A legal sample word is the word of an Int16 value. -/
theorem legalSampleWord_iff_range (w : Word) :
    legalSampleWord w = true ↔ -32768 ≤ w.toInt ∧ w.toInt ≤ 32767 := by
  have hw := w.isLt
  have htop : (w.extractLsb' 15 17).toNat = w.toNat / 2 ^ 15 := by
    rw [BitVec.extractLsb'_toNat, Nat.shiftRight_eq_div_pow]
    exact Nat.mod_eq_of_lt (by omega)
  rw [legalSampleWord, Bool.or_eq_true, beq_iff_eq, beq_iff_eq, ← BitVec.toNat_inj, ← BitVec.toNat_inj, htop,
    BitVec.toNat_allOnes, BitVec.toInt_eq_toNat_cond]
  simp only [BitVec.ofNat_eq_ofNat, BitVec.toNat_ofNat]
  split <;> omega

/-- `s16` keeps an Int16 value. -/
theorem sampleOfWord_toInt {w : Word} (h : legalSampleWord w = true) : (sampleOfWord w).toInt = w.toInt := by
  obtain ⟨hlo, hhi⟩ := (legalSampleWord_iff_range w).mp h
  have hcut : sampleOfWord w = w.setWidth 16 := (BitVec.setWidth_eq_extractLsb' (by decide)).symm
  have hmod : (w.toNat : Int).bmod (2 ^ 16) = w.toInt.bmod (2 ^ 16) := by
    rw [BitVec.toInt_eq_toNat_bmod, Int.bmod_bmod_of_dvd (by decide)]
  rw [hcut, BitVec.toInt_setWidth, hmod]
  exact Int.bmod_eq_of_le (by omega) (by omega)

theorem legalSampleWord_wordOfSample (v : Sample) : legalSampleWord (wordOfSample v) = true := by
  rw [legalSampleWord_iff_range, wordOfSample_toInt]
  exact sample_range v

@[simp] theorem sampleOfWord_wordOfSample (v : Sample) : sampleOfWord (wordOfSample v) = v :=
  BitVec.eq_of_toInt_eq ((sampleOfWord_toInt (legalSampleWord_wordOfSample v)).trans (wordOfSample_toInt v))

/-- A legal word is the word of the sample it stores. -/
theorem wordOfSample_sampleOfWord {w : Word} (h : legalSampleWord w = true) : wordOfSample (sampleOfWord w) = w :=
  BitVec.eq_of_toInt_eq ((wordOfSample_toInt _).trans (sampleOfWord_toInt h))

/-- Settles O36. -/
theorem legalSampleWordsAreSignExtensions : Obligations.LegalSampleWordsAreSignExtensions := by
  refine ⟨fun w => ⟨fun h => ⟨sampleOfWord w, (wordOfSample_sampleOfWord h).symm⟩, ?_⟩, sampleOfWord_wordOfSample,
    legalSampleWord_iff_range⟩
  rintro ⟨v, rfl⟩
  exact legalSampleWord_wordOfSample v

/-! ### The rules of a write (R53) -/

theorem busy_of_pend_none {b : Block} (h : b.pend = none) : b.busy = false := by rw [Block.busy, h]; rfl

theorem busy_of_pend_ne_none {b : Block} (h : b.pend ≠ none) : b.busy = true :=
  Option.isSome_iff_ne_none.mpr h

theorem memWrite_of_unmapped {a : BusAddr} (h : decodeAddr a = .unmapped) (b : Block) (w : Word) :
    memWrite b a w = raiseError b .addr := by
  simp only [memWrite, h]

/-- The targets a write reaches only while the block is idle: all but `CTRL` and `STATUS` (R53 steps 2 to 4). -/
def Target.waits (t : Target) : Prop := t ≠ .unmapped ∧ t ≠ .reg .ctrl ∧ t ≠ .reg .status

theorem waits_reg {r : Reg} (hctrl : r ≠ .ctrl) (hstatus : r ≠ .status) : (Target.reg r).waits :=
  ⟨by simp, by simpa using hctrl, by simpa using hstatus⟩

theorem waits_elem (g : Region) (k : Nat) : (Target.elem g k).waits := ⟨by simp, by simp, by simp⟩

theorem memWrite_of_waits {a : BusAddr} (h : (decodeAddr a).waits) (b : Block) (w : Word) :
    memWrite b a w = if b.busy then raiseError b .busy else idleWrite b (decodeAddr a) w := by
  obtain ⟨hmapped, hctrl, hstatus⟩ := h
  unfold memWrite
  split
  · exact absurd ‹_› hmapped
  · exact absurd ‹_› hctrl
  · exact absurd ‹_› hstatus
  · rfl

theorem memWrite_of_pending {a : BusAddr} {t : Target} (ha : decodeAddr a = t) (ht : t.waits) {b : Block}
    (hp : b.pend ≠ none) (w : Word) : memWrite b a w = raiseError b .busy := by
  rw [memWrite_of_waits (ha ▸ ht), if_pos (busy_of_pend_ne_none hp)]

theorem memWrite_of_idle {a : BusAddr} {t : Target} (ha : decodeAddr a = t) (ht : t.waits) {b : Block}
    (hp : b.pend = none) (w : Word) : memWrite b a w = idleWrite b t w := by
  rw [memWrite_of_waits (ha ▸ ht), if_neg (by simp [busy_of_pend_none hp]), ha]

/-- Every register but `CMD` is read-only (R53 step 6). -/
theorem idleWrite_reg_of_ne_cmd {r : Reg} (h : r ≠ .cmd) (b : Block) (w : Word) : idleWrite b (.reg r) w = b := by
  unfold idleWrite
  split
  · rfl
  · rename_i hr
    exact absurd (Target.reg.inj hr) h
  · rfl
  · rfl
  · rename_i hr
    cases hr

theorem idleWrite_fout (b : Block) (k : Nat) (w : Word) : idleWrite b (.elem .fout k) w = b := rfl

/-- An element of a host-writable memory: WPROT comes before the word's own check (R53 steps 7 to 9). -/
theorem idleWrite_elem {g : Region} (h : g ≠ .fout) (b : Block) (k : Nat) (w : Word) :
    idleWrite b (.elem g k) w
      = if g.frozenInBurst && b.eraseCnt != 0 then raiseError b .wprot else storeSample b g k w := by
  cases g with
  | fout => exact absurd rfl h
  | fin => rfl
  | hist => rfl
  | pbuf => rfl
  | lastq => rfl

theorem frozenInBurst_iff (g : Region) : g.frozenInBurst = true ↔ g = .pbuf ∨ g = .lastq := by
  cases g <;> decide

theorem idleWrite_elem_frozen {g : Region} (hg : g = .pbuf ∨ g = .lastq) {b : Block} (he : b.eraseCnt ≠ 0) (k : Nat)
    (w : Word) : idleWrite b (.elem g k) w = raiseError b .wprot := by
  have hfout : g ≠ .fout := by
    rintro rfl
    simp at hg
  rw [idleWrite_elem hfout, if_pos (by simpa [(frozenInBurst_iff g).mpr hg] using he)]

theorem idleWrite_elem_open {g : Region} (hfout : g ≠ .fout) {b : Block}
    (hopen : g = .pbuf ∨ g = .lastq → b.eraseCnt = 0) (k : Nat) (w : Word) :
    idleWrite b (.elem g k) w = storeSample b g k w := by
  rw [idleWrite_elem hfout, if_neg]
  intro hclosed
  obtain ⟨hfrozen, he⟩ := Bool.and_eq_true_iff.mp hclosed
  exact bne_iff_ne.mp he (hopen ((frozenInBurst_iff g).mp hfrozen))

theorem storeSample_of_legal {w : Word} (h : legalSampleWord w = true) (b : Block) (g : Region) (k : Nat) :
    storeSample b g k w = b.withMem g ((b.mem g).set k (sampleOfWord w)) := by
  rw [storeSample, if_pos h]

theorem storeSample_of_illegal {w : Word} (h : legalSampleWord w = false) (b : Block) (g : Region) (k : Nat) :
    storeSample b g k w = raiseError b .range := by
  rw [storeSample, if_neg (ne_true_of_eq_false h)]

/-! ### The rules of a read (R52) -/

theorem memRead_of_unmapped {s : State} {a : BusAddr} (h : decodeAddr a = .unmapped) :
    memRead s a = { s with blk := raiseError s.blk .addr, rdata := some 0 } := by
  simp only [memRead, h, readValue, if_true]

/-- A read that has a value returns it and changes nothing else. -/
theorem memRead_of_value {s : State} {a : BusAddr} {v : Word} (hmapped : decodeAddr a ≠ .unmapped)
    (hv : readValue s.blk (decodeAddr a) = some v) : memRead s a = { s with rdata := some v } := by
  simp only [memRead, hv, if_neg hmapped]

/-- A read that has none returns the next free value (log entry 3). -/
theorem memRead_of_free {s : State} {a : BusAddr} (hmapped : decodeAddr a ≠ .unmapped)
    (hv : readValue s.blk (decodeAddr a) = none) :
    memRead s a = { s with rdata := some (Config.anyWord s.draws), draws := s.draws + 1 } := by
  simp only [memRead, hv, if_neg hmapped]

/-- `ID`, `CTRL`, `CMD` and `STATUS` read in every state. -/
theorem memRead_of_alwaysReadable {s : State} {a : BusAddr} {r : Reg} (ha : decodeAddr a = .reg r)
    (hr : r.alwaysReadable = true) : memRead s a = { s with rdata := some (regValue s.blk r) } :=
  memRead_of_value (by simp [ha]) (by simp [ha, readValue, hr])

theorem memRead_elem_idle {s : State} {a : BusAddr} {g : Region} {k : Nat} (ha : decodeAddr a = .elem g k)
    (hp : s.blk.pend = none) : memRead s a = { s with rdata := some (wordOfSample ((s.blk.mem g).get k)) } :=
  memRead_of_value (by simp [ha]) (by simp [ha, readValue, busy_of_pend_none hp])

theorem memRead_elem_pending {s : State} {a : BusAddr} {g : Region} {k : Nat} (ha : decodeAddr a = .elem g k)
    (hp : s.blk.pend ≠ none) :
    memRead s a = { s with rdata := some (Config.anyWord s.draws), draws := s.draws + 1 } :=
  memRead_of_free (by simp [ha]) (by simp [ha, readValue, busy_of_pend_ne_none hp])

theorem alwaysReadable_iff (r : Reg) : r.alwaysReadable = true ↔ r ∈ [Reg.id, .ctrl, .cmd, .status] := by
  cases r <;> decide

theorem memRead_reg_pending {s : State} {a : BusAddr} {r : Reg} (ha : decodeAddr a = .reg r)
    (hr : r.alwaysReadable = false) (hp : s.blk.pend ≠ none) :
    memRead s a = { s with rdata := some (Config.anyWord s.draws), draws := s.draws + 1 } :=
  memRead_of_free (by simp [ha]) (by simp [ha, readValue, busy_of_pend_ne_none hp, hr])

/-! ### O37, O38, O41 -/

/-- Settles O37: the write is `storeSample` on the element (R53 steps 8 and 9), and a legal word is the word of the
sample it stores. -/
theorem sampleWriteStoresOrRefuses : Obligations.SampleWriteStoresOrRefuses := by
  intro s a g k w ha hfout hp hopen
  have hwrite : memWrite s.blk a w = storeSample s.blk g k w := by
    rw [memWrite_of_idle ha (waits_elem g k) hp, idleWrite_elem_open hfout hopen]
  refine ⟨fun hlegal => ?_, fun hillegal => hwrite.trans (storeSample_of_illegal hillegal s.blk g k)⟩
  rw [hwrite, storeSample_of_legal hlegal, Block.mem_withMem]
  refine ⟨?_, rfl, fun j hj => ?_⟩
  · rw [memRead_elem_idle ha (by rw [withMem_pend, hp]), Block.mem_withMem, Memory.get_set, if_pos rfl,
      wordOfSample_sampleOfWord hlegal]
  · rw [Memory.get_set, if_neg hj]

/-- Settles O38, target by target. -/
theorem writeErrorsHavePriority : Obligations.WriteErrorsHavePriority := by
  intro b a w
  refine ⟨fun ha => memWrite_of_unmapped ha b w, fun r ha hctrl hstatus hp => ?_, fun g k ha hp => ?_,
    fun r ha hctrl hstatus hcmd hp => ?_, fun k ha hp => ?_, fun g k ha hg hp he => ?_⟩
  · exact memWrite_of_pending ha (waits_reg hctrl hstatus) hp w
  · exact memWrite_of_pending ha (waits_elem g k) hp w
  · rw [memWrite_of_idle ha (waits_reg hctrl hstatus) hp, idleWrite_reg_of_ne_cmd hcmd]
  · rw [memWrite_of_idle ha (waits_elem .fout k) hp, idleWrite_fout]
  · rw [memWrite_of_idle ha (waits_elem g k) hp, idleWrite_elem_frozen hg he]

/-- Settles O41, by the rule of each kind of read. -/
theorem readsReturnTheirValue : Obligations.ReadsReturnTheirValue := by
  intro s a
  refine ⟨memRead_of_unmapped, fun ha => memRead_of_alwaysReadable ha rfl, ?_,
    fun ha => memRead_of_alwaysReadable ha rfl, fun r => memRead_reg_idle, fun g k => memRead_elem_idle,
    fun g k => memRead_elem_pending, fun r ha hr hp => ?_⟩
  · rintro (ha | ha)
    · exact memRead_of_alwaysReadable ha rfl
    · exact memRead_of_alwaysReadable ha rfl
  · have hclosed : r.alwaysReadable = false := eq_false_of_ne_true fun h => hr ((alwaysReadable_iff r).mp h)
    exact memRead_reg_pending ha hclosed hp

/-! ### O6: the host's turns -/

/-- With the reset input released a listed turn that is not the engine's takes effect in one step (R59, R147). -/
theorem step_of_hostTurn {s : State} {u : Turn} {ts : List Turn} (hr : s.inReset = false) (hts : s.turns = u :: ts)
    (hu : u ≠ .engine) : step s = .next { hostTurn s u with turns := ts } := by
  have hhead : s.headTurn = u := by rw [State.headTurn, hts]; rfl
  have he : s.engineNext = false := by simp [State.engineNext, hhead, hu]
  have hturns : (hostTurn s u).turns = u :: ts := by
    rw [← hts]
    cases u with
    | engine => rfl
    | read a => exact memRead_turns s a
    | write a w => rfl
    | reset => rfl
    | release => rfl
  rw [step_of_not_engineNext hr he, hhead, State.popTurn, hturns, List.tail_cons]

/-- Settles O6. -/
theorem stepTakesHostTurn : Obligations.StepTakesHostTurn := by
  intro s ts hr
  refine ⟨fun a hts => ?_, fun a w hts => ?_, step_of_reset hr, fun hts => ?_⟩
  · exact step_of_hostTurn hr hts (by simp)
  · exact step_of_hostTurn hr hts (by simp)
  · exact step_of_hostTurn hr hts (by simp)

/-! ### O55: the host does not disturb a pending command (R152) -/

/-- The block with another error record. -/
def Block.withError (b : Block) (e : Bool) (c : ErrCode) : Block := { b with err := e, errCode := c }

/-- Two blocks are the same but for the error record. -/
def Block.EqButError (b b' : Block) : Prop := b' = b.withError b'.err b'.errCode

theorem eqButError_refl (b : Block) : b.EqButError b := rfl

theorem eqButError_withError (b : Block) (e : Bool) (c : ErrCode) : b.EqButError (b.withError e c) := rfl

theorem Block.EqButError.trans {b b' b'' : Block} (h : b.EqButError b') (h' : b'.EqButError b'') :
    b.EqButError b'' := by
  rw [Block.EqButError] at h h' ⊢
  rw [h', h]
  rfl

theorem Block.EqButError.pend {b b' : Block} (h : b.EqButError b') : b'.pend = b.pend := by
  rw [h]
  rfl

theorem raiseError_eqButError (b : Block) (c : ErrCode) : b.EqButError (raiseError b c) := by
  cases he : b.err with
  | true => rw [raiseError_of_set he]; exact eqButError_refl b
  | false => rw [raiseError_of_clear he]; exact eqButError_withError b _ _

/-- While a command is pending a write short of a soft reset touches the error record only (R53 steps 1 to 4). -/
theorem memWrite_eqButError {b : Block} {a : BusAddr} {w : Word} (hp : b.pend ≠ none)
    (hres : (Turn.write a w).resets = false) : b.EqButError (memWrite b a w) := by
  have hbusy : b.busy = true := busy_of_pend_ne_none hp
  obtain ⟨c, e⟩ | ⟨ha, hw, _⟩ | ⟨_, _, e⟩ | ⟨hidle, _⟩ | ⟨_, _, hidle, _⟩ | e := memWrite_cases b a w
  · rw [e]
    exact raiseError_eqButError b c
  · rw [resets_of_ctrl ha hw] at hres
    cases hres
  · rw [e]
    exact eqButError_withError b _ _
  · rw [hbusy] at hidle
    cases hidle
  · rw [hbusy] at hidle
    cases hidle
  · rw [e]
    exact eqButError_refl b

theorem memRead_eqButError (s : State) (a : BusAddr) : s.blk.EqButError (memRead s a).blk := by
  rw [memRead_blk]
  split
  · exact raiseError_eqButError _ _
  · exact eqButError_refl _

/-- One access of the host while a command is pending: it is taken, and the block is the same but for its errors. -/
theorem step_access_pending {s : State} {u : Turn} {ts : List Turn} (hr : s.inReset = false) (hts : s.turns = u :: ts)
    (hp : s.blk.pend ≠ none) (hacc : u.isAccess = true) (hres : u.resets = false) :
    ∃ t, step s = .next t ∧ t.turns = ts ∧ t.inReset = false ∧ s.blk.EqButError t.blk := by
  cases u with
  | engine => cases hacc
  | read a =>
    exact ⟨_, step_of_hostTurn hr hts (by simp), rfl, (memRead_inReset s a).trans hr, memRead_eqButError s a⟩
  | write a w => exact ⟨_, step_of_hostTurn hr hts (by simp), rfl, hr, memWrite_eqButError hp hres⟩
  | reset => cases hacc
  | release => cases hacc

/-- Any number of them: the run takes every one, and whatever it does after them it does from such a block. -/
theorem run_accesses_pending (ts : List Turn) {s : State} (hr : s.inReset = false) (hts : s.turns = ts)
    (hp : s.blk.pend ≠ none) (hacc : ∀ u ∈ ts, u.isAccess = true ∧ u.resets = false) :
    ∃ t : State, (∀ k, core.run (ts.length + k) s = core.run k t) ∧ t.turns = [] ∧ t.inReset = false
      ∧ s.blk.EqButError t.blk := by
  induction ts generalizing s with
  | nil => exact ⟨s, fun k => by rw [List.length_nil, Nat.zero_add], hts, hr, eqButError_refl _⟩
  | cons u ts ih =>
    obtain ⟨hu, hrest⟩ := List.forall_mem_cons.mp hacc
    obtain ⟨s₁, hstep, hts₁, hr₁, hsame₁⟩ := step_access_pending hr hts hp hu.1 hu.2
    obtain ⟨t, hrun, hnil, hr', hsame⟩ := ih hr₁ hts₁ (hsame₁.pend ▸ hp) hrest
    refine ⟨t, fun k => ?_, hnil, hr', hsame₁.trans hsame⟩
    rw [List.length_cons, Nat.succ_add_eq_add_succ, Nat.add_succ, core_run_succ _ hstep, hrun]

theorem burstStart_withError (b : Block) (e : Bool) (c : ErrCode) :
    burstStart (b.withError e c) = ((burstStart b).1, (burstStart b).2.withError e c) := by
  have hhist : (b.withError e c).hist = b.hist := rfl
  rw [burstStart_eq, burstStart_eq, hhist]
  generalize pe b.hist.at = r
  rfl

/-- No regime reads the error record or writes it (R111). -/
theorem synthesize_withError (b : Block) (e : Bool) (c : ErrCode) (n : Nat) :
    synthesize (b.withError e c) n = ((synthesize b n).1, (synthesize b n).2.withError e c) := by
  unfold synthesize
  split
  · exact burstStart_withError b e c
  · split
    · rfl
    · split
      · rfl
      · rfl

theorem frameLost_withError (b : Block) (e : Bool) (c : ErrCode) :
    frameLost (b.withError e c) = (frameLost b).withError e c := by
  have hcnt : (b.withError e c).eraseCnt = b.eraseCnt := rfl
  rw [frameLost_eq, frameLost_eq, hcnt, synthesize_withError]
  rfl

theorem frameGood_withError (b : Block) (e : Bool) (c : ErrCode) :
    frameGood (b.withError e c) = (frameGood b).withError e c := by
  by_cases h : b.eraseCnt.toNat = 0
  · rw [frameGood_of_idle h, frameGood_of_idle (b := b.withError e c) h]
    rfl
  · rw [frameGood_of_burst h, frameGood_of_burst (b := b.withError e c) h]
    rfl

/-- What a command does is independent of the error record, which it passes on (R137). -/
theorem execBlk_withError (i : Instr) (b : Block) (e : Bool) (c : ErrCode) :
    execBlk i (b.withError e c) = (execBlk i b).withError e c := by
  cases i with
  | nop => rfl
  | frameGood => exact frameGood_withError b e c
  | frameLost => exact frameLost_withError b e c
  | peRun => rfl
  | snap => rfl

theorem execBlk_eqButError {b b' : Block} (h : b.EqButError b') (i : Instr) :
    (execBlk i b).EqButError (execBlk i b') := by
  rw [h, execBlk_withError]
  exact eqButError_withError _ _ _

/-- Settles O55: the accesses change the error record only, and the command's effect does not depend on it. -/
theorem hostCannotDisturbPendingCommand : Obligations.HostCannotDisturbPendingCommand := by
  intro s w i hr hp hd hacc
  obtain ⟨t, hrun, hnil, hrt, hsame⟩ := run_accesses_pending s.turns hr rfl (by simp [hp]) hacc
  have hstep : step t = .next (t.withBlk (execBlk i t.blk)).retire := by
    rw [step_engineNext ((engineNext_iff t).mpr ⟨hrt, Or.inl hnil⟩), engineTurn_pend (hsame.pend.trans hp) hd, exec_eq]
  have hblk := execBlk_eqButError hsame i
  refine ⟨_, _, (hrun 1).trans (core_run_succ 0 hstep), exec_eq i s, ?_, ?_⟩
  · rw [retire_blk, withBlk_blk, hblk]
    rfl
  · rw [retire_turns, withBlk_turns, hnil, List.tail_nil]

/-! ### O57: an access reaches one window (R48, R144) -/

theorem answers_iff (x : Engine) (a : Nat) :
    x.answers a = true ↔ x.base ≤ a ∧ a < x.base + Config.WINDOW_BYTES := by
  simp only [Engine.answers, Bool.and_eq_true, decide_eq_true_eq]

/-- Of two blocks whose windows are apart at most one answers. -/
theorem answers_eq_false_of_apart {x y : Engine} {a : Nat} (h : x.Apart y) (hy : y.answers a = true) :
    x.answers a = false := by
  refine eq_false_of_ne_true fun hx => ?_
  obtain ⟨hxlo, hxhi⟩ := (answers_iff x a).mp hx
  obtain ⟨hylo, hyhi⟩ := (answers_iff y a).mp hy
  obtain h | h := h <;> omega

/-- Where the windows are apart, an access is given to the block that answers, wherever it stands in the list. -/
theorem issue_eq_set {p : Platform} {a k : Nat} {x : Engine} (mk : BusAddr → Turn) (hwf : p.Wf) (hx : p[k]? = some x)
    (ha : x.answers a = true) : p.issue a mk = p.set k (x.give a mk) := by
  induction p generalizing k with
  | nil => cases hx
  | cons y p ih =>
    obtain ⟨hapart, hwf'⟩ := List.pairwise_cons.mp hwf
    cases k with
    | zero =>
      cases hx
      rw [Platform.issue, if_pos ha, List.set_cons_zero]
    | succ k =>
      have hx' : p[k]? = some x := hx
      have hy := answers_eq_false_of_apart (hapart x (List.mem_of_getElem? hx')) ha
      rw [Platform.issue, if_neg (ne_true_of_eq_false hy), ih hwf' hx', List.set_cons_succ]

/-- An access outside every window reaches no block. -/
theorem issue_of_no_answer {p : Platform} {a : Nat} (mk : BusAddr → Turn) (h : ∀ x ∈ p, x.answers a = false) :
    p.issue a mk = p := by
  induction p with
  | nil => rfl
  | cons x p ih =>
    obtain ⟨hx, hp⟩ := List.forall_mem_cons.mp h
    rw [Platform.issue, if_neg (ne_true_of_eq_false hx), ih hp]

/-- Settles O57. -/
theorem accessReachesOneWindow : Obligations.AccessReachesOneWindow := by
  refine ⟨fun p a k x mk hwf hx ha => ?_, fun p a mk => issue_of_no_answer mk, fun p a mk hwf => ?_,
    fun p q k hwf hstep => ?_, fun bases k => ?_⟩
  · obtain ⟨hk, _⟩ := List.getElem?_eq_some_iff.mp hx
    rw [issue_eq_set mk hwf hx ha]
    exact ⟨List.getElem?_set_self hk, fun j hj => List.getElem?_set_ne hj.symm⟩
  · exact (platform_wf_congr (issue_bases p a mk)).mpr hwf
  · exact (platform_wf_congr (stepAt_bases hstep)).mpr hwf
  · exact List.getElem?_map

end Sys2Proof.Machine

/-! The family of statements about the encoding (30_encoding.md). A word and its fields determine each other, and the
fields that pass R69's checks are those of the five commands; so the decoder, which compares whole words, rejects
exactly the words whose fields fail a check. -/

namespace Sys2Proof.Machine

/-! ### The words of the commands (R66, R68) -/

theorem encode_nop : encode .nop = 0x00000000 := by decide
theorem encode_peRun : encode .peRun = 0x00000002 := by decide
theorem encode_snap : encode .snap = 0x00000003 := by decide

theorem decode_encode (i : Instr) : decode (encode i) = .ok i := by
  cases i with
  | nop => rw [encode_nop]; rfl
  | frameGood => rw [encode_frameGood]; rfl
  | frameLost => rw [encode_frameLost]; rfl
  | peRun => rw [encode_peRun]; rfl
  | snap => rw [encode_snap]; rfl

theorem decode_eq_ok_iff (w : Word) (i : Instr) : decode w = .ok i ↔ w = encode i := by
  constructor
  · exact eq_encode_of_decode
  · rintro rfl
    exact decode_encode i

theorem exists_decode_ok_iff_word (w : Word) : (∃ i, decode w = .ok i)
    ↔ w = 0x00000000 ∨ w = 0x00000001 ∨ w = 0x00000011 ∨ w = 0x00000002 ∨ w = 0x00000003 := by
  simp only [decode_eq_ok_iff, ← encode_nop, ← encode_frameGood, ← encode_frameLost, ← encode_peRun, ← encode_snap]
  constructor
  · rintro ⟨i, rfl⟩
    cases i <;> simp only [true_or, or_true]
  · rintro (h | h | h | h | h) <;> exact ⟨_, h⟩

/-- The word of each command has the fields of the table, and they pass R69's checks. -/
theorem wordFields (i : Instr) : Laws.WordFields.Statement i := by
  cases i with
  | nop => exact Laws.WordFields.nop
  | frameGood => exact Laws.WordFields.frameGood
  | frameLost => exact Laws.WordFields.frameLost
  | peRun => exact Laws.WordFields.peRun
  | snap => exact Laws.WordFields.snap

/-- Settles O2: a legal word is the word of its command, and that word decodes back. -/
theorem decodeEncodeAgree : Obligations.DecodeEncodeAgree := decode_eq_ok_iff

/-- Settles O1: the five decodings are `decode_encode` at each command's word. -/
theorem fiveWordsAreLegal : Obligations.FiveWordsAreLegal := by
  refine ⟨?nop, ?frameGood, ?frameLost, ?peRun, ?snap, exists_decode_ok_iff_word, fun i => (wordFields i).1⟩
  case nop => exact encode_nop ▸ decode_encode .nop
  case frameGood => exact encode_frameGood ▸ decode_encode .frameGood
  case frameLost => exact encode_frameLost ▸ decode_encode .frameLost
  case peRun => exact encode_peRun ▸ decode_encode .peRun
  case snap => exact encode_snap ▸ decode_encode .snap

/-! ### The fields of a word (R66) -/

/-- Format C leaves out no bit of a word. -/
theorem wordOf_formatOf (w : Word) : wordOf (formatOf w) = w := by
  refine BitVec.eq_of_getLsbD_eq fun k hk => ?_
  simp only [wordOf, formatOf, BitVec.getLsbD_append, BitVec.getLsbD_extractLsb', BitVec.getLsbD_ofBool]
  obtain hop | rfl | hrsvd : k < 4 ∨ k = 4 ∨ 5 ≤ k := by omega
  · simp [hop, show k < 5 by omega]
  · rfl
  · simp [show ¬ k < 5 by omega, show k - 5 < 27 by omega, Nat.add_sub_cancel' hrsvd]

theorem formatOf_op_toNat (w : Word) : (formatOf w).op.toNat = w.toNat % 16 := by
  simp [formatOf]

theorem formatOf_rsvd_toNat (w : Word) : (formatOf w).rsvd.toNat = w.toNat / 32 := by
  have hw : w.toNat / 32 < 2 ^ 27 := by have := w.isLt; omega
  rw [formatOf, BitVec.extractLsb'_toNat, Nat.shiftRight_eq_div_pow]
  exact Nat.mod_eq_of_lt hw

theorem formatOf_op_eq_one_iff (w : Word) : (formatOf w).op = 1 ↔ w.toNat % 16 = 1 := by
  rw [← formatOf_op_toNat]
  exact BitVec.toNat_inj.symm

theorem formatOf_rsvd_eq_zero_iff (w : Word) : (formatOf w).rsvd = 0 ↔ w.toNat / 32 = 0 := by
  rw [← formatOf_rsvd_toNat]
  exact BitVec.toNat_inj.symm

/-! ### The checks of format C (R69) -/

theorem check_eq_none_iff (f : FormatC) :
    f.check = none ↔ f.rsvd = 0 ∧ (f.lost = true → f.op = 1) ∧ f.op.toNat < 4 := by
  unfold FormatC.check
  split_ifs <;> simp_all

/-- The fields that pass R69's checks are those of the five commands. -/
theorem check_eq_none_iff_format (f : FormatC) : f.check = none ↔ ∃ i : Instr, f = i.format := by
  constructor
  · intro h
    obtain ⟨op, lost, rsvd⟩ := f
    obtain ⟨hrsvd, hlost, hop⟩ := (check_eq_none_iff _).mp h
    obtain rfl : rsvd = 0 := hrsvd
    cases lost with
    | true =>
      obtain rfl : op = 1 := hlost rfl
      exact ⟨.frameLost, rfl⟩
    | false =>
      have hcases : op = 0 ∨ op = 1 ∨ op = 2 ∨ op = 3 := by
        simp only at hop
        bv_omega
      obtain rfl | rfl | rfl | rfl := hcases
      · exact ⟨.nop, rfl⟩
      · exact ⟨.frameGood, rfl⟩
      · exact ⟨.peRun, rfl⟩
      · exact ⟨.snap, rfl⟩
  · rintro ⟨i, rfl⟩
    exact Option.isNone_iff_eq_none.mp (wordFields i).2

/-! ### Illegal words (R69) -/

theorem eq_encode_iff_formatOf (w : Word) (i : Instr) : w = encode i ↔ formatOf w = i.format := by
  constructor
  · rintro rfl
    exact (wordFields i).1
  · intro h
    rw [encode, ← h, wordOf_formatOf]

/-- The decoder accepts a word exactly when its fields pass R69's checks. -/
theorem exists_decode_ok_iff_check (w : Word) : (∃ i, decode w = .ok i) ↔ (formatOf w).check = none := by
  simp only [decode_eq_ok_iff, eq_encode_iff_formatOf, check_eq_none_iff_format]

theorem exists_decode_error_iff (w : Word) : (∃ r, decode w = .error r) ↔ ¬ ∃ i, decode w = .ok i := by
  cases decode w <;> simp

/-- R69's three cases, on the bits of the word. -/
theorem exists_decode_error_iff_bits (w : Word) : (∃ r, decode w = .error r)
    ↔ 4 ≤ w.toNat % 16 ∨ (w.getLsbD 4 = true ∧ w.toNat % 16 ≠ 1) ∨ w.toNat / 32 ≠ 0 := by
  have hlost : (formatOf w).lost = w.getLsbD 4 := rfl
  rw [exists_decode_error_iff, exists_decode_ok_iff_check, check_eq_none_iff, formatOf_rsvd_eq_zero_iff, hlost,
    formatOf_op_eq_one_iff, formatOf_op_toNat, not_and_or, not_and_or, Classical.not_imp, not_lt]
  tauto

/-- Acceptance of an illegal word records ILLEGAL_CMD, the first of the checks of validation (R69, R75). -/
theorem accept_of_decode_error {w : Word} {r : Reject} (h : decode w = .error r) (b : Block) :
    accept b w = raiseError b .illegalCmd := by
  have hv : validate b w = some .illegalCmd := by rw [validate, h]
  rw [accept, hv]

/-- Settles O3: the decoder's illegal words are those whose fields fail a check of format C. -/
theorem illegalWordsAreRefused : Obligations.IllegalWordsAreRefused := by
  refine fun w b => ⟨exists_decode_error_iff_bits w, ?_⟩
  rintro ⟨r, h⟩
  exact accept_of_decode_error h b

end Sys2Proof.Machine

/-! The family of statements about commands (40_commands.md). Acceptance is validation of the decoded word (R74, R75);
completion is the command's block (`execBlk`) with `PEND` cleared and the turn over (R76). -/

namespace Sys2Proof.Machine

/-! ### O4, O5, O7: the engine's turn (R76, R146) -/

/-- At the engine's turn the step completes the pending command. -/
theorem step_completes {s : State} {w : Word} {i : Instr} (hr : s.inReset = false)
    (hts : s.turns = [] ∨ ∃ ts, s.turns = .engine :: ts) (hp : s.blk.pend = some w) (hd : decode w = .ok i) :
    step s = .next (s.withBlk (execBlk i s.blk)).retire := by
  have he : s.engineNext = true := (engineNext_iff s).mpr ⟨hr, hts⟩
  rw [step_engineNext he, engineTurn_pend hp hd, exec_eq]

/-- Settles O4: `Exec` answers the block the step retires. -/
theorem stepRunsDecodedCommand : Obligations.StepRunsDecodedCommand := by
  intro s w i hr hts hp hd
  exact ⟨_, exec_eq i s, step_completes hr hts hp hd⟩

/-- Settles O5: the engine's step with nothing pending takes its turn off the list. -/
theorem idleEngineKeepsState : Obligations.IdleEngineKeepsState := by
  intro s hr hts hp
  have he : s.engineNext = true := (engineNext_iff s).mpr ⟨hr, hts⟩
  rw [step_engineNext he, engineTurn_idle hp, State.popTurn]

/-- Settles O7: no command touches the error record or `FIN`, and retiring clears `PEND` only. -/
theorem completionRaisesNoError : Obligations.CompletionRaisesNoError := by
  intro s w i hr hts hp hd
  obtain ⟨herr, hcode⟩ := execBlk_errorRecord i s.blk
  exact ⟨_, step_completes hr hts hp hd, rfl, herr, hcode, execBlk_fin i s.blk, rfl, rfl, rfl⟩

/-! ### O8, O29: what `nop` and the frame commands leave (R80, R117, R122) -/

/-- Settles O8: the block `nop` leaves is the block it finds. -/
theorem nopChangesNothing : Obligations.NopChangesNothing := exec_eq .nop

/-- Settles O29: the saturated count is never 0 (R117), and every genuine frame clears it (R122). -/
theorem framesCountLosses : Obligations.FramesCountLosses := by
  intro s
  have hcount : (frameLost s.blk).eraseCnt.toNat = min (s.blk.eraseCnt.toNat + 1) (2 ^ 32 - 1) := by
    rw [frameLost_eraseCnt]
    exact sat32_toNat _
  have hpos : 1 ≤ (frameLost s.blk).eraseCnt.toNat := by omega
  exact ⟨⟨_, exec_eq .frameLost s, hcount, hpos⟩, _, exec_eq .frameGood s, frameGood_eraseCnt s.blk⟩

/-! ### O43: acceptance (R74, R75) -/

theorem accept_of_validate_some {b : Block} {w : Word} {c : ErrCode} (h : validate b w = some c) :
    accept b w = raiseError b c := by
  rw [accept, h]

theorem accept_of_validate_none {b : Block} {w : Word} (h : validate b w = none) :
    accept b w = { b with pend := some w } := by
  rw [accept, h]

theorem validate_snap (b : Block) :
    validate b (encode .snap) = if b.eraseCnt ≠ 0 then some .wprot else none := by
  rw [validate, decode_encode]

/-- The two frame commands share one check: a burst must be consistent (R75). -/
theorem validate_frame {i : Instr} (hi : i = .frameGood ∨ i = .frameLost) (b : Block) :
    validate b (encode i) = if b.eraseCnt ≠ 0 ∧ ¬ b.Cons then some .state else none := by
  obtain rfl | rfl := hi <;> rw [validate, decode_encode]

/-- `nop` and `pe.run` are legal in every state (R75). -/
theorem validate_unchecked {i : Instr} (hi : i = .nop ∨ i = .peRun) (b : Block) : validate b (encode i) = none := by
  obtain rfl | rfl := hi <;> rw [validate, decode_encode]

/-- A frame word is the word of a frame command. -/
theorem exists_frame_of_word {w : Word} (h : w = 0x00000001 ∨ w = 0x00000011) :
    ∃ i : Instr, (i = .frameGood ∨ i = .frameLost) ∧ w = encode i := by
  obtain h | h := h
  · exact ⟨.frameGood, Or.inl rfl, h.trans encode_frameGood.symm⟩
  · exact ⟨.frameLost, Or.inr rfl, h.trans encode_frameLost.symm⟩

theorem decodeAddr_cmd : decodeAddr 0x008 = .reg .cmd := by decide

/-- A write to `CMD` while the block is idle is acceptance (R53 step 5). -/
theorem memWrite_cmd_of_idle {b : Block} (hp : b.pend = none) (w : Word) : memWrite b 0x008 w = accept b w :=
  memWrite_of_idle decodeAddr_cmd (waits_reg (by simp) (by simp)) hp w

/-- Settles O43: the write is acceptance, and validation of each command's word decides it. -/
theorem commandWriteValidates : Obligations.CommandWriteValidates := by
  intro b w hp
  rw [memWrite_cmd_of_idle hp]
  refine ⟨?illegal, ?snapInBurst, ?frameCorrupted, ?unchecked, ?snapIdle, ?frameOk⟩
  case illegal =>
    rintro ⟨r, h⟩
    exact accept_of_decode_error h b
  case snapInBurst =>
    intro hw he
    obtain rfl := hw.trans encode_snap.symm
    exact accept_of_validate_some (by rw [validate_snap, if_pos he])
  case frameCorrupted =>
    intro hw he hcons
    obtain ⟨i, hi, rfl⟩ := exists_frame_of_word hw
    exact accept_of_validate_some (by rw [validate_frame hi, if_pos ⟨he, hcons⟩])
  case unchecked =>
    rintro (hw | hw)
    · obtain rfl := hw.trans encode_nop.symm
      exact accept_of_validate_none (validate_unchecked (Or.inl rfl) b)
    · obtain rfl := hw.trans encode_peRun.symm
      exact accept_of_validate_none (validate_unchecked (Or.inr rfl) b)
  case snapIdle =>
    intro hw he
    obtain rfl := hw.trans encode_snap.symm
    exact accept_of_validate_none (by rw [validate_snap, if_neg (not_not.mpr he)])
  case frameOk =>
    intro hw hok
    obtain ⟨i, hi, rfl⟩ := exists_frame_of_word hw
    have hpass : ¬ (b.eraseCnt ≠ 0 ∧ ¬ b.Cons) := fun ⟨he, hcons⟩ => hok.elim he hcons
    exact accept_of_validate_none (by rw [validate_frame hi, if_neg hpass])

end Sys2Proof.Machine

/-! The family of statements about the crossfader (41_overlap_add.md). A BLEND sample is a rounded convex combination
of its two inputs, so it stays between them and the clamp is idle. BLEND_END is BLEND with the operands exchanged and
the synthetic one scaled by the recovery gain, which is 1 after one loss and 0 from six losses on. -/

namespace Sys2Proof.Machine

/-! ### O18: BLEND (R81) -/

/-- A convex combination with weights `n − i` and `i`, rounded toward zero, lies between the two values (R12, R81). -/
theorem tdiv_crossfade_bounds (a b : Int) {n i : Nat} (hi : i < n) :
    min a b ≤ tdiv (((n : Int) - i) * a + i * b) n ∧ tdiv (((n : Int) - i) * a + i * b) n ≤ max a b := by
  have hn : (0 : Int) < n := by omega
  have hleft : (0 : Int) ≤ n - i := by omega
  have hright : (0 : Int) ≤ i := by omega
  refine tdiv_bounds hn ?_ ?_
  · calc min a b * n = ((n : Int) - i) * min a b + i * min a b := by ring
      _ ≤ ((n : Int) - i) * a + i * b := by gcongr <;> simp
  · calc ((n : Int) - i) * a + i * b ≤ ((n : Int) - i) * max a b + i * max a b := by gcongr <;> simp
      _ = max a b * n := by ring

/-- BLEND's clamp changes nothing where both inputs are samples (R81). -/
theorem blend_eq_tdiv {l r : Nat → Int} {n i : Nat} (hl : -32768 ≤ l i ∧ l i ≤ 32767)
    (hr : -32768 ≤ r i ∧ r i ≤ 32767) (hi : i < n) :
    blend l r n i = tdiv (((n : Int) - i) * l i + i * r i) n := by
  obtain ⟨hlo, hhi⟩ := tdiv_crossfade_bounds (l i) (r i) hi
  exact clamp16_of_range (by omega) (by omega)

/-- BLEND starts exactly at a left operand that is a sample: its weight there is `n / n` (R81). -/
theorem blend_at_zero {l : Nat → Int} (r : Nat → Int) {n : Nat} (hl : -32768 ≤ l 0 ∧ l 0 ≤ 32767) (hn : 0 < n) :
    blend l r n 0 = l 0 := by
  have hquot : tdiv ((n : Int) * l 0) n = l 0 := by
    rw [tdiv_eq _ _ (by omega), Int.mul_tdiv_cancel_left _ (by omega)]
  have hnum : ((n : Int) - (0 : Nat)) * l 0 + (0 : Nat) * r 0 = n * l 0 := by simp
  rw [blend, hnum, hquot, clamp16_of_range hl.1 hl.2]

/-- Settles O18: the clamp is idle, and the rounded convex combination lies between its inputs. -/
theorem blendStaysBetweenItsInputs : Obligations.BlendStaysBetweenItsInputs := by
  intro l r n i hl hr hi
  have hblend := blend_eq_tdiv (hl i) (hr i) hi
  obtain ⟨hlo, hhi⟩ := tdiv_crossfade_bounds (l i) (r i) hi
  rw [← hblend] at hlo hhi
  exact ⟨hblend, hlo, hhi, blend_at_zero r (hl 0) (by omega)⟩

/-! ### O19: BLEND_END (R82) -/

theorem recoveryGain_one : recoveryGain 1 = Config.ATTEN_DEN := by simp [recoveryGain]

theorem recoveryGain_of_six_le {e : Nat} (he : 6 ≤ e) : recoveryGain e = 0 := by
  rw [recoveryGain_eq]
  omega

/-- Where the recovery gain is the fraction `g` of its full value, BLEND_END is BLEND from the synthetic samples scaled
by `g` to the genuine ones: the gain's denominator cancels (R82). -/
theorem blendEnd_eq_blend_of_gain {e : Nat} {g : Int} (hgain : recoveryGain e = Config.ATTEN_DEN * g)
    (t s : Nat → Int) {n : Nat} (hn : 0 < n) (i : Nat) :
    blendEnd t s n e i = blend (fun k => g * s k) t n i := by
  have hnum : recoveryGain e * ((n : Int) - i) * s i + Config.ATTEN_DEN * i * t i
      = Config.ATTEN_DEN * (((n : Int) - i) * (g * s i) + i * t i) := by
    rw [hgain]
    ring
  rw [blendEnd, blend, hnum, tdiv_mul_mul _ _ _ (by decide) (by omega)]

/-- After one loss the gain is 1, so BLEND_END is BLEND with the operands exchanged (R82). -/
theorem blendEnd_one (t s : Nat → Int) {n : Nat} (hn : 0 < n) (i : Nat) : blendEnd t s n 1 i = blend s t n i := by
  simpa using blendEnd_eq_blend_of_gain (g := 1) (by rw [recoveryGain_one, mul_one]) t s hn i

/-- From six losses on the gain is 0, so BLEND_END is BLEND from silence to the genuine samples (R82). -/
theorem blendEnd_of_six_le {e : Nat} (he : 6 ≤ e) (t s : Nat → Int) {n : Nat} (hn : 0 < n) (i : Nat) :
    blendEnd t s n e i = blend (fun _ => 0) t n i := by
  simpa using blendEnd_eq_blend_of_gain (g := 0) (by rw [recoveryGain_of_six_le he, mul_zero]) t s hn i

/-- Settles O19: both ends of the gain reduce BLEND_END to BLEND; at gain 0 its corner cases (O18) are the fade-in. -/
theorem blendEndMeetsBlendAndFadeIn : Obligations.BlendEndMeetsBlendAndFadeIn := by
  intro t s n i ht hi
  have hn : 0 < n := by omega
  refine ⟨blendEnd_one t s hn i, fun e he => ?_⟩
  rw [blendEnd_of_six_le he t s hn, blendEnd_of_six_le he t s hn]
  have hsilence : -32768 ≤ (0 : Int) ∧ (0 : Int) ≤ 32767 := by decide
  constructor
  · simpa using blend_eq_tdiv (l := fun _ => 0) hsilence (ht i) hi
  · exact blend_at_zero t hsilence hn

end Sys2Proof.Machine

/-! The family of statements about the pitch estimator (42_pitch_estimator.md). The integer comparison `geq` is the
order of the real scores, so it is reflexive, total and transitive; a scan by it ends at the last of the best
candidates. The sums of R87 and R94 slide by one term, and sums over samples fit the result registers. -/

namespace Sys2Proof.Machine

/-! ### O12: `geq` and the real scores (R90) -/

theorem geq_of_nonneg_of_neg {a b : Score} (ha : 0 ≤ a.c) (hb : b.c < 0) : geq a b = true := by
  rw [geq, if_pos ha, if_neg hb.not_ge]

theorem geq_of_neg_of_nonneg {a b : Score} (ha : a.c < 0) (hb : 0 ≤ b.c) : geq a b = false := by
  rw [geq, if_neg ha.not_ge, if_pos hb]

theorem geq_iff_of_nonneg {a b : Score} (ha : 0 ≤ a.c) (hb : 0 ≤ b.c) :
    geq a b = true ↔ b.c * b.c * a.s ≤ a.c * a.c * b.s := by
  rw [geq, if_pos ha, if_pos hb, decide_eq_true_iff]

theorem geq_iff_of_neg {a b : Score} (ha : a.c < 0) (hb : b.c < 0) :
    geq a b = true ↔ a.c * a.c * b.s ≤ b.c * b.c * a.s := by
  rw [geq, if_neg ha.not_ge, if_neg hb.not_ge, decide_eq_true_iff]

/-- The real score `C/√S` (R89). -/
noncomputable def Score.value (a : Score) : ℝ := (a.c : ℝ) / Real.sqrt (a.s : ℝ)

theorem Score.value_nonneg {a : Score} (hc : 0 ≤ a.c) : 0 ≤ a.value :=
  div_nonneg (by exact_mod_cast hc) (Real.sqrt_nonneg _)

theorem Score.value_neg {a : Score} (hs : 0 < a.s) (hc : a.c < 0) : a.value < 0 :=
  div_neg_of_neg_of_pos (by exact_mod_cast hc) (Real.sqrt_pos.mpr (by exact_mod_cast hs))

/-- Squares of scores compare without the root, by cross-multiplication (R90). -/
theorem Score.value_sq_le_iff {a b : Score} (ha : 0 < a.s) (hb : 0 < b.s) :
    b.value ^ 2 ≤ a.value ^ 2 ↔ b.c * b.c * a.s ≤ a.c * a.c * b.s := by
  have ha' : (0 : ℝ) < a.s := by exact_mod_cast ha
  have hb' : (0 : ℝ) < b.s := by exact_mod_cast hb
  rw [Score.value, Score.value, div_pow, div_pow, Real.sq_sqrt ha'.le, Real.sq_sqrt hb'.le, div_le_div_iff₀ hb' ha',
    pow_two, pow_two]
  exact_mod_cast Iff.rfl

/-- `geq` is the order of the real scores: with unlike signs the sign decides, with like signs the squares do (R90). -/
theorem geq_iff_value_le {a b : Score} (ha : 0 < a.s) (hb : 0 < b.s) : geq a b = true ↔ b.value ≤ a.value := by
  rcases lt_or_ge a.c 0 with hac | hac <;> rcases lt_or_ge b.c 0 with hbc | hbc
  · rw [geq_iff_of_neg hac hbc, ← Score.value_sq_le_iff hb ha]
    rw [sq_le_sq, abs_of_neg (Score.value_neg ha hac), abs_of_neg (Score.value_neg hb hbc), neg_le_neg_iff]
  · have hlt : a.value < b.value := (Score.value_neg ha hac).trans_le (Score.value_nonneg hbc)
    simp [geq_of_neg_of_nonneg hac hbc, hlt]
  · have hlt : b.value < a.value := (Score.value_neg hb hbc).trans_le (Score.value_nonneg hac)
    simp [geq_of_nonneg_of_neg hac hbc, hlt.le]
  · rw [geq_iff_of_nonneg hac hbc, ← Score.value_sq_le_iff ha hb]
    exact sq_le_sq₀ (Score.value_nonneg hbc) (Score.value_nonneg hac)

/-- Settles O12: floored energies are positive, so `geq` is the order of the real scores. -/
theorem geqComparesRealScores : Obligations.GeqComparesRealScores := by
  intro a b ha hb
  exact ⟨geq_iff_value_le (by omega) (by omega), geq_of_nonneg_of_neg, geq_of_neg_of_nonneg, geq_iff_of_nonneg,
    geq_iff_of_neg⟩

/-! ### The scan (R91) -/

theorem geq_refl (a : Score) : geq a a = true := by
  rcases lt_or_ge a.c 0 with hc | hc
  · exact (geq_iff_of_neg hc hc).mpr le_rfl
  · exact (geq_iff_of_nonneg hc hc).mpr le_rfl

theorem geq_trans {a b c : Score} (ha : 0 < a.s) (hb : 0 < b.s) (hc : 0 < c.s) (hab : geq a b = true)
    (hbc : geq b c = true) : geq a c = true := by
  rw [geq_iff_value_le ha hb] at hab
  rw [geq_iff_value_le hb hc] at hbc
  exact (geq_iff_value_le ha hc).mpr (hbc.trans hab)

theorem geq_total {a b : Score} (ha : 0 < a.s) (hb : 0 < b.s) : geq a b = true ∨ geq b a = true := by
  rw [geq_iff_value_le ha hb, geq_iff_value_le hb ha]
  exact le_total _ _

/-- `w` is at least as good as the candidate `j`, and better if `j` is later (R91). -/
def LastBest (score : Nat → Score) (w j : Nat) : Prop :=
  geq (score w) (score j) = true ∧ (w < j → geq (score j) (score w) = false)

/-- A scan over ascending candidates ends at the last best of them (R91). -/
theorem selectFrom_lastBest {score : Nat → Score} (hs : ∀ j, 0 < (score j).s) {best : Nat} {js : List Nat}
    (hasc : (best :: js).Pairwise (· < ·)) : ∀ j ∈ best :: js, LastBest score (selectFrom score best js) j := by
  induction js generalizing best with
  | nil =>
    intro j hj
    obtain rfl := List.mem_singleton.mp hj
    exact ⟨geq_refl _, fun h => absurd h (lt_irrefl _)⟩
  | cons k js ih =>
    obtain ⟨hbest, htail⟩ := List.pairwise_cons.mp hasc
    unfold selectFrom
    split
    case isTrue hk =>
      rintro j (_ | ⟨_, hj⟩)
      · refine ⟨geq_trans (hs _) (hs _) (hs _) (ih htail k (by simp)).1 hk, fun hlt => ?_⟩
        have hmem : selectFrom score k js ∈ k :: js := List.mem_cons.mpr (selectFrom_mem score k js)
        exact absurd (hbest _ hmem) hlt.not_gt
      · exact ih htail j hj
    case isFalse hk =>
      have hasc' : (best :: js).Pairwise (· < ·) :=
        hasc.sublist ((List.sublist_cons_self k js).cons_cons best)
      have hwin := ih hasc'
      rintro j (_ | ⟨_, _ | ⟨_, hj⟩⟩)
      · exact hwin best (by simp)
      · have hwbest := (hwin best (by simp)).1
        have hbestk : geq (score best) (score k) = true := (geq_total (hs best) (hs k)).resolve_right hk
        refine ⟨geq_trans (hs _) (hs _) (hs _) hwbest hbestk, fun _ => Bool.eq_false_iff.mpr fun hkw => hk ?_⟩
        exact geq_trans (hs _) (hs _) (hs _) hkw hwbest
      · exact hwin j (List.mem_cons_of_mem _ hj)

theorem select_lastBest {score : Nat → Score} (hs : ∀ j, 0 < (score j).s) {js : List Nat}
    (hasc : js.Pairwise (· < ·)) : ∀ j ∈ js, LastBest score (select score js) j := by
  cases js with
  | nil => simp
  | cons best js => exact selectFrom_lastBest hs hasc

theorem coarseLags_ascending : coarseLags.Pairwise (· < ·) :=
  List.pairwise_map.mpr (List.pairwise_lt_range.imp fun h => by simp only [Config.NDEC]; omega)

theorem fineLags_ascending (c : Nat) : (fineLags c).Pairwise (· < ·) := List.pairwise_lt_range'

/-- The floor keeps every energy positive (R89). -/
theorem scoreOf_s_pos (c e : Int) : 0 < (scoreOf c e).s := by
  simp only [scoreOf, Config.CORR_MIN_POWER]
  omega

/-- The coarse winner is the last best of the coarse candidates (R91, R92). -/
theorem pe_coarse_lastBest (x : Nat → Int) {j : Nat} (heven : j % 2 = 0) (hj : j ≤ 80) :
    LastBest (coarseScore x) (pe x).coarse j := by
  rw [pe_coarse_eq]
  exact select_lastBest (fun _ => scoreOf_s_pos _ _) coarseLags_ascending j (mem_coarseLags.mpr ⟨heven, hj⟩)

/-- The fine winner is the last best of the fine candidates (R91, R95). -/
theorem pe_lag_lastBest (x : Nat → Int) {j : Nat} (hlo : (pe x).coarse - 1 ≤ j) (hj : j ≤ 80)
    (hhi : j ≤ (pe x).coarse + 1) : LastBest (fineScore x) (pe x).lag j := by
  rw [pe_lag_eq]
  exact select_lastBest (fun _ => scoreOf_s_pos _ _) (fineLags_ascending _) j (mem_fineLags.mpr ⟨hlo, hj, hhi⟩)

/-! ### O13, O14, O15: the winners (R92, R95, R96) -/

/-- The coarse energy with the parameters' values (R87). -/
theorem coarseEnergy_eq (x : Nat → Int) (j : Nat) :
    coarseEnergy x j = sumTo 80 fun k => x (110 + j + 2 * k) ^ 2 := rfl

/-- The fine sums with the parameters' values (R94). -/
theorem fineEnergy_eq (x : Nat → Int) (j : Nat) : fineEnergy x j = sumTo 160 fun i => x (110 + j + i) ^ 2 := rfl

theorem fineCorr_eq (x : Nat → Int) (j : Nat) :
    fineCorr x j = sumTo 160 fun i => x (110 + j + i) * x (230 + i) := rfl

/-- The coarse score with the parameters' values (R87, R89). -/
theorem coarseScore_eq (x : Nat → Int) : coarseScore x = fun j =>
    { c := sumTo 80 (fun k => x (110 + j + 2 * k) * x (230 + 2 * k))
      s := max (sumTo 80 (fun k => x (110 + j + 2 * k) ^ 2)) 250 } := rfl

/-- The fine score with the parameters' values (R89, R94). -/
theorem fineScore_eq (x : Nat → Int) : fineScore x = fun j =>
    { c := sumTo 160 (fun i => x (110 + j + i) * x (230 + i))
      s := max (sumTo 160 (fun i => x (110 + j + i) ^ 2)) 250 } := rfl

/-- Settles O13: the scan of the coarse candidates ends at their last best. -/
theorem coarseWinnerIsLastBest : Obligations.CoarseWinnerIsLastBest := by
  intro x score
  obtain ⟨heven, hle⟩ := pe_coarse_range x
  rw [show score = coarseScore x from (coarseScore_eq x).symm]
  exact ⟨heven, hle, fun j => pe_coarse_lastBest x⟩

/-- Settles O14: the scan of the fine candidates ends at their last best. -/
theorem fineWinnerIsLastBest : Obligations.FineWinnerIsLastBest := by
  intro x score
  obtain ⟨hlo, hle, hhi⟩ := pe_lag_range x
  rw [show score = fineScore x from (fineScore_eq x).symm]
  refine ⟨⟨hlo, le_min hle hhi⟩, fun j hj hj' => ?_⟩
  obtain ⟨hj80, hjhi⟩ := le_min_iff.mp hj'
  exact pe_lag_lastBest x hj hj80 hjhi

/-- Settles O15: the winner's range bounds the pitch, and the outputs are the winner's sums. -/
theorem pitchEstimateIsAlwaysInRange : Obligations.PitchEstimateIsAlwaysInRange := by
  intro x
  obtain ⟨_, hlag, _⟩ := pe_lag_range x
  obtain ⟨h40, h120⟩ := pe_pitch_range x
  exact ⟨pe_pitch_eq x, hlag, h40, h120, (pe_corr_eq x).trans (fineCorr_eq x _),
    (pe_energy_eq x).trans (fineEnergy_eq x _)⟩

/-! ### O16: the running energies (R88) -/

/-- A window of a sum moved on by one drops its first term and takes in the next. -/
theorem sumTo_slide (n : Nat) (f : Nat → Int) : sumTo n (fun k => f (k + 1)) = sumTo n f - f 0 + f n := by
  have hright : sumTo (n + 1) f = sumTo n f + f n := rfl
  rw [sumTo_succ_left] at hright
  omega

theorem coarseEnergy_add_two (x : Nat → Int) (j : Nat) :
    coarseEnergy x (j + 2) = coarseEnergy x j - x (110 + j) ^ 2 + x (110 + j + 160) ^ 2 := by
  have hshift : coarseEnergy x (j + 2) = sumTo 80 fun k => x (110 + j + 2 * (k + 1)) ^ 2 := by
    rw [coarseEnergy_eq]
    refine sumTo_congr fun k _ => ?_
    rw [show 110 + (j + 2) + 2 * k = 110 + j + 2 * (k + 1) by omega]
  rw [hshift, sumTo_slide 80 fun k => x (110 + j + 2 * k) ^ 2, ← coarseEnergy_eq]
  rfl

theorem fineEnergy_add_one (x : Nat → Int) (j : Nat) :
    fineEnergy x (j + 1) = fineEnergy x j - x (110 + j) ^ 2 + x (110 + j + 160) ^ 2 := by
  have hshift : fineEnergy x (j + 1) = sumTo 160 fun i => x (110 + j + (i + 1)) ^ 2 := by
    rw [fineEnergy_eq]
    refine sumTo_congr fun i _ => ?_
    rw [show 110 + (j + 1) + i = 110 + j + (i + 1) by omega]
  rw [hshift, sumTo_slide 160 fun i => x (110 + j + i) ^ 2, ← fineEnergy_eq]
  rfl

/-- Settles O16: each energy slides by one term from the candidate before. -/
theorem runningEnergiesAreExact : Obligations.RunningEnergiesAreExact := by
  intro x j
  refine ⟨coarseEnergy_eq x j, fineEnergy_eq x j, fun h2 _ => ?_, fun h1 _ => ?_⟩
  · obtain ⟨m, rfl⟩ := Nat.exists_eq_add_of_le' h2
    exact coarseEnergy_add_two x m
  · obtain ⟨m, rfl⟩ := Nat.exists_eq_add_of_le' h1
    exact fineEnergy_add_one x m

/-! ### O17: the constant buffer (R101) -/

theorem sumTo_const (n : Nat) (a : Int) : sumTo n (fun _ => a) = n * a := by
  induction n with
  | zero => simp [sumTo]
  | succ n ih =>
    rw [sumTo, ih]
    push_cast
    ring

/-- No later candidate ties with the last best. -/
theorem LastBest.le_of_tie {score : Nat → Score} {w j : Nat} (h : LastBest score w j) (htie : score j = score w) :
    j ≤ w := by
  obtain ⟨_, hlater⟩ := h
  by_contra hlt
  have hfalse := hlater (by omega)
  rw [htie, geq_refl] at hfalse
  exact Bool.noConfusion hfalse

theorem coarseScore_const (v : Int) (i j : Nat) : coarseScore (fun _ => v) i = coarseScore (fun _ => v) j := by
  rw [coarseScore_eq]

theorem fineScore_const (v : Int) (i j : Nat) : fineScore (fun _ => v) i = fineScore (fun _ => v) j := by
  rw [fineScore_eq]

theorem pe_const_coarse (v : Int) : (pe fun _ => v).coarse = 80 :=
  le_antisymm (pe_coarse_range _).2 ((pe_coarse_lastBest _ rfl le_rfl).le_of_tie (coarseScore_const v _ _))

theorem pe_const_lag (v : Int) : (pe fun _ => v).lag = 80 := by
  obtain ⟨_, hlag, _⟩ := pe_lag_range fun _ => v
  have hc := pe_const_coarse v
  exact le_antisymm hlag ((pe_lag_lastBest _ (by omega) le_rfl (by omega)).le_of_tie (fineScore_const v _ _))

/-- Settles O17: all candidates tie, so both stages end at the last one, 80. -/
theorem constantBufferGivesShortestPitch : Obligations.ConstantBufferGivesShortestPitch := by
  intro v
  refine ⟨pe_const_coarse v, pe_const_lag v, ?_, ?_, ?_⟩
  · rw [pe_pitch_eq, pe_const_lag]
  · rw [pe_corr_eq, fineCorr_eq, sumTo_const]
    push_cast
    ring
  · rw [pe_energy_eq, fineEnergy_eq, sumTo_const]
    push_cast
    ring

/-! ### O10: `pe.run` (R94, R96, R98, R101) -/

theorem Memory.at_range (m : Memory) (k : Nat) : -32768 ≤ m.at k ∧ m.at k ≤ 32767 := sample_range _

/-- `PE_CORR` holds the correlation of samples exactly (R98). -/
theorem pe_corr_toInt (m : Memory) : (BitVec.ofInt 64 (pe m.at).corr).toInt = (pe m.at).corr := by
  obtain ⟨hlo, hhi⟩ := fineCorr_bounds m.at_range (pe m.at).lag
  rw [← pe_corr_eq] at hlo hhi
  rw [BitVec.toInt_ofInt]
  exact Int.bmod_eq_of_le (by norm_num; omega) (by norm_num; omega)

/-- `PE_ENERGY` holds the energy of samples exactly (R98). -/
theorem pe_energy_toNat (m : Memory) : ((BitVec.ofInt 64 (pe m.at).energy).toNat : Int) = (pe m.at).energy := by
  obtain ⟨hlo, hhi⟩ := fineEnergy_bounds m.at_range (pe m.at).lag
  rw [← pe_energy_eq] at hlo hhi
  rw [BitVec.toNat_ofInt]
  omega

/-- Settles O10: PE's outputs (O15) fit the registers they are written to. -/
theorem peRunWritesExactResult : Obligations.PeRunWritesExactResult := by
  intro s
  dsimp only
  obtain ⟨heven, hcoarse⟩ := pe_coarse_range s.blk.pbuf.at
  obtain ⟨hlo, _, hhi⟩ := pe_lag_range s.blk.pbuf.at
  obtain ⟨hpitch, hlag, _, h120, hcorr, henergy⟩ := pitchEstimateIsAlwaysInRange s.blk.pbuf.at
  refine ⟨s.withBlk (writePE s.blk (pe s.blk.pbuf.at)), exec_eq .peRun s, rfl, ?_⟩
  rw [withBlk_blk, writePE_pePitch, writePE_peCoarseLag, writePE_peLag, writePE_peCorr, writePE_peEnergy,
    toNat_ofNat_of_le h120, toNat_ofNat_of_le (by omega), toNat_ofNat_of_le (by omega), pe_corr_toInt, pe_energy_toNat]
  exact ⟨rfl, rfl, rfl, hlag, hpitch, heven, hcoarse, hhi, by omega, hcorr, henergy⟩

end Sys2Proof.Machine

/-! The family of statements about the cycle cursor (43_cycle_cursor.md) and its walk through a burst (R118). One pass
of the chunked copy reads the cursor's indices up to the window's end, so the copy is the closed form by induction on
the passes. A burst is an iteration of `frameLost` that keeps the cycle window (`frameLost_cycleOk`), and the regime of
each count says where the cursor goes. -/

namespace Sys2Proof.Machine

/-! ### O21: the chunked copy (R103) -/

/-- The Pitch Buffer indices of the closed form: `size` steps of the cursor through a window of `L`. -/
def cycleIndices (L off size : Nat) : List Nat := (List.range size).map fun k => 390 - L + (off + k) % L

/-- The walk may pause anywhere and go on from where the cursor then is. -/
theorem cycleIndices_add (L off m n : Nat) :
    cycleIndices L off (m + n) = cycleIndices L off m ++ cycleIndices L ((off + m) % L) n := by
  simp only [cycleIndices, List.range_add, List.map_append, List.map_map, List.append_cancel_left_eq]
  refine List.map_congr_left fun k _ => ?_
  rw [Function.comp_apply, Nat.mod_add_mod, Nat.add_assoc]

/-- Up to the window's end the walk is one contiguous chunk. -/
theorem cycleIndices_of_le {L off n : Nat} (h : off + n ≤ L) :
    cycleIndices L off n = List.range' (390 - L + off) n := by
  rw [cycleIndices, List.range'_eq_map_range]
  refine List.map_congr_left fun k hk => ?_
  have hlt : off + k < L := by
    have := List.mem_range.mp hk
    omega
  rw [Nat.mod_eq_of_lt hlt, Nat.add_assoc]

/-- The listing's wrap at the window's end is the remainder. -/
theorem wrap_eq_mod {L n : Nat} (h : n ≤ L) : (if n = L then 0 else n) = n % L := by
  split
  · simp [*]
  · exact (Nat.mod_eq_of_lt (by omega)).symm

/-- Nothing to copy takes no pass. -/
theorem extractChunks_zero {L off : Nat} (fuel : Nat) (hoff : off < L) :
    extractChunks L fuel off 0 = (cycleIndices L off 0, (off + 0) % L) := by
  rw [Nat.add_zero, Nat.mod_eq_of_lt hoff]
  cases fuel <;> rfl

/-- One pass of the listing's loop: a chunk up to the window's end at most, and the copy of what is left from the
wrapped cursor. -/
theorem extractChunks_succ {L fuel off size cnt : Nat} (hoff : off < L) (hsize : size ≠ 0)
    (hcnt : cnt = min (L - off) size) :
    extractChunks L (fuel + 1) off size =
      (cycleIndices L off cnt ++ (extractChunks L fuel ((off + cnt) % L) (size - cnt)).1,
        (extractChunks L fuel ((off + cnt) % L) (size - cnt)).2) := by
  have hend : off + cnt ≤ L := by omega
  rw [extractChunks, if_neg hsize, ← hcnt]
  dsimp only
  rw [wrap_eq_mod hend, cycleIndices_of_le hend]

theorem extractChunks_eq {L off size fuel : Nat} (hoff : off < L) (hfuel : size ≤ fuel) :
    extractChunks L fuel off size = (cycleIndices L off size, (off + size) % L) := by
  induction fuel generalizing off size with
  | zero =>
    obtain rfl : size = 0 := by omega
    exact extractChunks_zero 0 hoff
  | succ fuel ih =>
    by_cases hsize : size = 0
    · rw [hsize]
      exact extractChunks_zero (fuel + 1) hoff
    · obtain ⟨cnt, hcnt⟩ : ∃ cnt, cnt = min (L - off) size := ⟨_, rfl⟩
      have hnext : (off + cnt) % L < L := Nat.mod_lt _ (by omega)
      have hsplit : cnt + (size - cnt) = size := by omega
      rw [extractChunks_succ hoff hsize hcnt, ih hnext (by omega), ← cycleIndices_add, Nat.mod_add_mod,
        Nat.add_assoc, hsplit]

/-- Settles O21, by induction on the passes. -/
theorem chunkedExtractMatchesClosedForm : Obligations.ChunkedExtractMatchesClosedForm :=
  fun _ _ _ _ hoff _ hfuel => extractChunks_eq hoff hfuel

/-! ### O22: EXTRACT and PEEK (R103, R104) -/

/-- Inside its contract EXTRACT moves the cursor cyclically (R103). -/
theorem extract_offset_toNat {b : Block} (h : b.CursorOk) (n : Nat) :
    (extract b n).2.offset.toNat = (b.offset.toNat + n) % b.cycleLen.toNat :=
  advanceOffset_of_ok h n

/-- Settles O22: the cursor's rule and the shape of EXTRACT and PEEK. -/
theorem extractMovesOnlyTheCursor : Obligations.ExtractMovesOnlyTheCursor := by
  intro b n k hoff hlen
  have hok : b.CursorOk := ⟨hoff, hlen⟩
  have hmoved := extract_offset_toNat hok n
  have hinside : (extract b n).2.offset.toNat < b.cycleLen.toNat := by
    rw [hmoved]
    exact Nat.mod_lt _ (Nat.zero_lt_of_lt hoff)
  exact ⟨extractAt_of_ok hok k, rfl, hmoved, hinside, rfl, rfl⟩

/-! ### O34: where each regime leaves the cursor (R112, R114 to R116) -/

/-- The first loss is a burst start (R111). -/
theorem frameLost_of_idle {b : Block} (h : b.eraseCnt = 0) :
    frameLost b = push { (burstStart b).2 with eraseCnt := 1 } fun i => toSample ((burstStart b).1 i) := by
  have hzero : b.eraseCnt.toNat = 0 := by rw [h]; rfl
  rw [frameLost_eq, hzero]
  rfl

/-- Burst start takes the pitch of `HIST` (R112). -/
theorem frameLost_pitch_of_idle {b : Block} (h : b.eraseCnt = 0) :
    (frameLost b).pitch.toNat = (pe b.hist.at).pitch := by
  rw [frameLost_of_idle h]
  exact toNat_ofNat_of_le (pe_pitch_range _).2

/-- A loss inside a burst keeps the pitch (R114 to R116). -/
theorem frameLost_pitch_of_burst {b : Block} (h : b.eraseCnt.toNat ≠ 0) : (frameLost b).pitch = b.pitch := by
  obtain ⟨hp, _⟩ := synthesize_burst_frame b h
  exact hp

/-- Burst start reads its frame from the start of a cycle of one pitch (R112). -/
theorem armed_extract_offset (b : Block) {r : PEResult} (hge : 40 ≤ r.pitch) (hle : r.pitch ≤ 120) :
    (extract (stitch (arm b r)) 80).2.offset.toNat = 80 % r.pitch := by
  have hstitched : (stitch (arm b r)).CycleOk 1 := (arm_cycleOk b hge hle).of_eq rfl rfl rfl rfl
  rw [extract_offset_toNat (hstitched.cursorOk (by decide)), stitch_offset, arm_offset, stitch_cycleLen,
    arm_cycleLen, toNat_ofNat_of_le hle]
  simp

theorem frameLost_offset_of_idle {b : Block} (h : b.eraseCnt = 0) :
    (frameLost b).offset.toNat = 80 % (pe b.hist.at).pitch := by
  obtain ⟨hge, hle⟩ := pe_pitch_range b.hist.at
  have hoffset : (frameLost b).offset = (burstStart b).2.offset := by rw [frameLost_of_idle h, push_offset]
  rw [hoffset, burstStart_eq, armed_extract_offset _ hge hle]

/-- The short extension reads its frame from the old cursor in the widened window (R114). -/
theorem shortExtension_offset {b : Block} {n : Nat} (h : b.CycleOk n) (hn : n ≤ 2) (e : Nat) :
    (shortExtension b e).2.offset.toNat = (b.offset.toNat + 80) % (shortExtension b e).2.cycleLen.toNat := by
  have hwide := shortExtension_cycleOk h hn e
  have hinside : b.offset.toNat < (shortExtension b e).2.cycleLen.toNat := by
    calc b.offset.toNat < b.pitch.toNat * n := h.cycleLen_eq ▸ h.offset_lt
      _ ≤ b.pitch.toNat * (n + 1) := Nat.mul_le_mul_left _ n.le_succ
      _ = (shortExtension b e).2.cycleLen.toNat := hwide.cycleLen_eq.symm
  have hfits := (hwide.cursorOk (by omega)).2
  exact extract_offset_toNat (b := stitch { b with cycleLen := b.cycleLen + b.pitch }) ⟨hinside, hfits⟩ 80

/-- Up to the fifth count a loss in a consistent burst moves the cursor by a frame, in the window it leaves
(R114, R115). -/
theorem frameLost_offset_of_sounding {b : Block} (h : b.Cons) (h1 : 1 ≤ b.eraseCnt.toNat)
    (h5 : b.eraseCnt.toNat ≤ 5) :
    (frameLost b).offset.toNat = (b.offset.toNat + 80) % (frameLost b).cycleLen.toNat := by
  have hcycle := (cons_iff_cycleOk b).mp h
  rw [frameLost_eq]
  generalize b.eraseCnt.toNat = e at *
  obtain h2 | h3 : e ≤ 2 ∨ 3 ≤ e := by omega
  · rw [synthesize_short b h1 h2]
    exact shortExtension_offset hcycle (by omega) e
  · rw [synthesize_steady b h3 h5]
    exact extract_offset_toNat h.cursorOk 80

/-- From the sixth count on a loss leaves the cursor and pushes silence (R116). -/
theorem frameLost_of_muted {b : Block} (h : 6 ≤ b.eraseCnt.toNat) :
    (frameLost b).offset = b.offset ∧ FramePushed b (frameLost b) fun _ => 0 := by
  rw [frameLost_eq, synthesize_mute b h]
  exact ⟨rfl, framePushed_push rfl _⟩

/-! ### O34: the burst (R118) -/

/-- A run of lost frames iterates `frameLost` on the block. -/
theorem runCommands_frameLost (n : Nat) (s : State) :
    runCommands (List.replicate n .frameLost) s = .next (s.withBlk (frameLost^[n] s.blk)) := by
  induction n generalizing s with
  | zero => rfl
  | succ n ih =>
    rw [List.replicate_succ, runCommands, exec_eq]
    exact ih _

/-- The burst after `n ≥ 1` losses from the block `b`: the count, the pitch of the history it began on, and a window of
`min n 3` pitches. -/
structure BurstAfter (b : Block) (n : Nat) (c : Block) : Prop where
  count : c.eraseCnt.toNat = n
  pitch : c.pitch.toNat = (pe b.hist.at).pitch
  cycle : c.CycleOk (min n 3)

theorem BurstAfter.cons {b c : Block} {n : Nat} (h : BurstAfter b n c) : c.Cons := by
  rw [cons_iff_cycleOk, h.count]
  exact h.cycle

/-- A count below its last value goes up by one with a loss (R117). -/
theorem frameLost_count {b : Block} {n : Nat} (h : b.eraseCnt.toNat = n) (hn : n + 1 < 2 ^ 32) :
    (frameLost b).eraseCnt.toNat = n + 1 := by
  rw [frameLost_eraseCnt, sat32_toNat, h]
  omega

theorem burstAfter_one {b : Block} (h : b.eraseCnt = 0) : BurstAfter b 1 (frameLost b) where
  count := frameLost_count (by rw [h]; rfl) (by decide)
  pitch := frameLost_pitch_of_idle h
  cycle := by simpa [h] using frameLost_cycleOk (b := b) (Or.inl h)

/-- Each further loss goes on with the burst. -/
theorem BurstAfter.succ {b c : Block} {n : Nat} (h : BurstAfter b n c) (h1 : 1 ≤ n) (hn : n + 1 < 2 ^ 32) :
    BurstAfter b (n + 1) (frameLost c) where
  count := frameLost_count h.count hn
  pitch := by rw [frameLost_pitch_of_burst (by rw [h.count]; omega), h.pitch]
  cycle := by
    rw [← h.count]
    exact frameLost_cycleOk (Or.inr h.cons)

theorem burstAfter_iterate {b : Block} (h : b.eraseCnt = 0) {n : Nat} (hn : n + 1 < 2 ^ 32) :
    BurstAfter b (n + 1) (frameLost^[n + 1] b) := by
  induction n with
  | zero => exact burstAfter_one h
  | succ n ih =>
    rw [Function.iterate_succ_apply']
    exact (ih (by omega)).succ (by omega) hn

/-- Settles O34: the burst's registers by induction on the losses, the cursor by the regime of the last one. -/
theorem burstRunsTheRegimesInOrder : Obligations.BurstRunsTheRegimesInOrder := by
  intro s n h0 hn
  dsimp only
  have hburst := burstAfter_iterate h0 hn
  have hlen := hburst.cycle.cycleLen_eq
  rw [hburst.pitch, Nat.mul_comm] at hlen
  have hoverlap := hburst.cycle.overlap_eq
  rw [hburst.pitch, Nat.shiftRight_eq_div_pow] at hoverlap
  refine ⟨_, _, runCommands_frameLost n s, runCommands_frameLost (n + 1) s, hburst.count, hburst.pitch, hoverlap, hlen,
    ?burstStart, ?sounding, ?muted⟩
  case burstStart =>
    rintro rfl
    exact frameLost_offset_of_idle h0
  case sounding =>
    intro h1 h5
    obtain ⟨m, rfl⟩ := Nat.exists_eq_add_of_le' h1
    have hprev := burstAfter_iterate h0 (n := m) (by omega)
    have hcount := hprev.count
    rw [← hlen, Function.iterate_succ_apply' _ (m + 1)]
    exact frameLost_offset_of_sounding hprev.cons (by omega) (by omega)
  case muted =>
    intro h6
    obtain ⟨m, rfl⟩ := Nat.exists_eq_add_of_le' (show 1 ≤ n by omega)
    have hcount := (burstAfter_iterate h0 (n := m) (by omega)).count
    rw [Function.iterate_succ_apply' _ (m + 1)]
    exact frameLost_of_muted (by rwa [hcount])

end Sys2Proof.Machine

/-! The family of statements about the attenuation envelope (44_attenuation.md). Through the counts 1 to 5 the gain
falls by one step of `1/400` a sample, so ATTEN is one long BLEND from the synthetic samples to silence, of which each
frame takes its 80 steps. What R81 says of BLEND then says that ATTEN keeps its samples' range and never amplifies. -/

namespace Sys2Proof.Machine

/-! ### O20: ATTEN (R107, R108) -/

/-- The gain has lost one step for each sample since the first lost frame began, so the scaled sample is BLEND's
numerator toward silence (R81, R107). -/
theorem mul_gainNum_succ (a : Int) (m i : Nat) :
    a * gainNum (m + 1) i = ((400 : Nat) - ((80 * m + i : Nat) : Int)) * a + (80 * m + i : Nat) * 0 := by
  rw [gainNum_eq]
  push_cast
  ring

/-- ATTEN at count `m + 1` is the part from step `80·m` on of the BLEND from the samples to silence over `ATTEN_SCALE`
steps (R81, R108). -/
theorem atten_eq_blend_silence (x : Nat → Int) (m i : Nat) :
    atten x (m + 1) i = blend (fun _ => x i) (fun _ => 0) 400 (80 * m + i) := by
  rw [atten, blend, mul_gainNum_succ]
  rfl

/-- Settles O20: O18 for the BLEND to silence that ATTEN is; before step 400 it lies between the sample and 0. -/
theorem attenuationNeverAmplifies : Obligations.AttenuationNeverAmplifies := by
  intro x e i hx h1 h5 hi
  obtain ⟨m, rfl⟩ := Nat.exists_eq_add_of_le' h1
  have hsilence : -32768 ≤ (0 : Int) ∧ (0 : Int) ≤ 32767 := by decide
  have hstep : 80 * m + i < 400 := by omega
  obtain ⟨hformula, hlo, hhi, -⟩ :=
    blendStaysBetweenItsInputs (fun _ => x i) (fun _ => 0) 400 (80 * m + i) (fun _ => hx i) (fun _ => hsilence) hstep
  rw [← atten_eq_blend_silence] at hformula hlo hhi
  refine ⟨?formula, ?quieter, ?start⟩
  case formula => rw [hformula, ← mul_gainNum_succ, gainNum_eq, Nat.cast_ofNat]
  case quieter => simpa using Set.abs_sub_right_of_mem_uIcc (Set.mem_Icc.mpr ⟨hlo, hhi⟩)
  case start =>
    rw [atten_eq_blend_silence x 0 0]
    exact blend_at_zero _ (hx 0) (by decide)

end Sys2Proof.Machine

/-! The family of statements about the erasure state machine (45_erasure_fsm.md). Each regime's loss is one PUSH of a
block with its cursor moved: the armed block of burst start, the widened block of the short extension, the block itself
after that. On a consistent cycle window (`Block.CycleOk`) EXTRACT, the self-stitch and the cursor have closed forms in
the pitch, and each statement reads its regime's push through them. -/

namespace Sys2Proof.Machine

/-! ### The closed forms on a cycle window (R102, R103, R113) -/

/-- What a push is about is its 80 samples. -/
theorem FramePushed.congr {b b' : Block} {f g : Nat → Sample} (h : FramePushed b b' f) (hfg : ∀ i < 80, f i = g i) :
    FramePushed b b' g := by
  obtain ⟨hshift, hframe, htap⟩ := h
  exact ⟨hshift, fun i hi => (hframe i hi).trans (hfg i hi), htap⟩

theorem advanceOffset_of_cursorOk {b : Block} (h : b.CursorOk) (size : Nat) :
    advanceOffset b size = BitVec.ofNat 32 ((b.offset.toNat + size) % b.cycleLen.toNat) := if_pos h

theorem Block.CycleOk.cycleLen_eq_mul_pitch {b : Block} {n : Nat} (h : b.CycleOk n) :
    b.cycleLen.toNat = n * b.pitch.toNat := h.cycleLen_eq.trans (Nat.mul_comm _ _)

theorem Block.CycleOk.cycleLen_eq_ofNat {b : Block} {n : Nat} (h : b.CycleOk n) :
    b.cycleLen = BitVec.ofNat 32 (n * b.pitch.toNat) := by
  rw [← h.cycleLen_eq_mul_pitch, BitVec.ofNat_toNat, BitVec.setWidth_eq]

/-- A window of `n` pitches is read cyclically from the cursor (R103). -/
theorem extractAt_of_cycleOk {b : Block} {n : Nat} (h : b.CycleOk n) (hn : n ≤ 3) (k : Nat) :
    extractAt b k
      = b.pbuf.at (390 - n * b.pitch.toNat + (b.offset.toNat + k) % (n * b.pitch.toNat)) := by
  rw [extractAt_of_ok (h.cursorOk hn), h.cycleLen_eq_mul_pitch]
  rfl

theorem advanceOffset_of_cycleOk {b : Block} {n : Nat} (h : b.CycleOk n) (hn : n ≤ 3) (size : Nat) :
    advanceOffset b size = BitVec.ofNat 32 ((b.offset.toNat + size) % (n * b.pitch.toNat)) := by
  rw [advanceOffset_of_cursorOk (h.cursorOk hn), h.cycleLen_eq_mul_pitch]

/-- A quarter of a pitch fits `LASTQ`, and fits the Pitch Buffer before up to three pitches (R113, R114). -/
theorem Block.CycleOk.stitchOk {b : Block} {n : Nat} (h : b.CycleOk n) (hn : n ≤ 3) : b.StitchOk := by
  have hlen := Nat.mul_le_mul h.pitch_le hn
  have hcycle := h.cycleLen_eq
  have hquarter := h.overlap_eq
  have hpitch := h.pitch_le
  rw [Nat.shiftRight_eq_div_pow] at hquarter
  simp only [Block.StitchOk, Config.OVERLAP_MAX, Config.HISTORY_LEN]
  omega

/-- The self-stitch blends the captured tail into the end of the Pitch Buffer and leaves the rest (R113). -/
theorem stitch_pbuf_get {b : Block} {n : Nat} (h : b.CycleOk n) (hn : n ≤ 3) {k : Nat} (hk : k < 390) :
    (stitch b).pbuf.get k =
      if k < 390 - b.overlap.toNat then b.pbuf.get k
      else toSample (blend b.lastq.at (fun i => b.pbuf.at (390 - n * b.pitch.toNat - b.overlap.toNat + i))
        b.overlap.toNat (k - (390 - b.overlap.toNat))) := by
  rw [stitch_pbuf, stitchedPbuf_get, if_pos hk, stitchedAt_of_ok (h.stitchOk hn), h.cycleLen_eq_mul_pitch]
  rfl

/-- BLEND's sample `i` reads sample `i` of its operands (R81). -/
theorem blend_congr_left {l l' : Nat → Int} {i : Nat} (h : l i = l' i) (r : Nat → Int) (n : Nat) :
    blend l r n i = blend l' r n i := by
  rw [blend, blend, h]

/-! ### O27: a genuine frame outside a burst (R119) -/

/-- Settles O27: outside a burst the command is the push of `FIN`. -/
theorem goodFramePassesThrough : Obligations.GoodFramePassesThrough := by
  intro s h0
  have hidle : frameGood s.blk = push s.blk s.blk.fin.get := frameGood_of_idle (congrArg BitVec.toNat h0)
  refine ⟨_, exec_eq .frameGood s, ?_, ?_⟩
  · rw [execBlk, hidle]
    rfl
  · rw [execBlk, hidle]
    exact framePushed_push rfl _

/-! ### O28: the recovery (R119) -/

theorem blendEnd_eq (t s : Nat → Int) (n e i : Nat) :
    blendEnd t s n e i
      = clamp16 (tdiv (max 0 (6 - (e : Int)) * ((n : Int) - i) * s i + 5 * i * t i) (5 * n)) := by
  rw [blendEnd, recoveryGain_eq]
  rfl

/-- Settles O28: `cons` is EXTRACT's contract, so the cycle's samples and the cursor are the closed forms. -/
theorem recoveryBlendsOutOfTheBurst : Obligations.RecoveryBlendsOutOfTheBurst := by
  rintro s e rfl he hcons
  have hburst := frameGood_of_burst he
  rw [advanceOffset_of_cursorOk hcons.cursorOk] at hburst
  refine ⟨_, exec_eq .frameGood s, ?_, ?_⟩
  · rw [execBlk, hburst]
    rfl
  · rw [execBlk, hburst]
    refine (framePushed_push rfl _).congr fun i _ => ?_
    rw [blendEnd_eq, extractAt_of_ok hcons.cursorOk]
    rfl

/-! ### O26: the mute (R116) -/

/-- Settles O26: the mute leaves the block, and the loss counts and pushes silence. -/
theorem mutePushesSilence : Obligations.MutePushesSilence := by
  intro s h5
  refine ⟨_, exec_eq .frameLost s, ?_, ?_, (frameLost_of_muted h5).2⟩
  · rw [execBlk, frameLost_eq, synthesize_mute _ h5]
    rfl
  · exact sat32_toNat _

/-! ### O25: the steady repeat (R115) -/

/-- A loss at counts 3 to 5 pushes the cycle's next samples under the ramp. -/
theorem frameLost_of_steady {b : Block} {e : Nat} (he : b.eraseCnt.toNat = e) (h3 : 3 ≤ e) (h5 : e ≤ 5) :
    frameLost b = push { b with offset := advanceOffset b 80, eraseCnt := BitVec.ofNat 32 (e + 1) }
      fun i => toSample (atten (extractAt b) e i) := by
  rw [frameLost_eq, he, synthesize_steady b h3 h5, sat32_of_lt (by omega)]
  rfl

/-- Settles O25: at these counts the window is three pitches. -/
theorem steadyRepeatWalksTheCycle : Obligations.SteadyRepeatWalksTheCycle := by
  intro s e he h3 h5 hcons
  have hcycle : s.blk.CycleOk 3 := by
    have hwindow := (cons_iff_cycleOk s.blk).mp hcons
    rwa [he, Nat.min_eq_right h3] at hwindow
  have hsteady := frameLost_of_steady he h3 h5
  rw [advanceOffset_of_cycleOk hcycle (by decide), funext (extractAt_of_cycleOk hcycle (by decide))] at hsteady
  refine ⟨_, exec_eq .frameLost s, ?_, ?_⟩
  · rw [execBlk, hsteady]
    rfl
  · rw [execBlk, hsteady]
    exact framePushed_push rfl _

/-! ### O24: the short extension (R114) -/

/-- The block that the short extension reads its frame from: one pitch more in the window, the tail stitched anew. -/
def Block.widened (b : Block) : Block := stitch { b with cycleLen := b.cycleLen + b.pitch }

/-- Out of the sequence `l` into the sequence `r` over the first `n` samples, and `r` alone after them (R114). -/
def fadeInto (l r : Nat → Int) (n i : Nat) : Int := if i < n then blend l r n i else r i

theorem extended_cycleOk {b : Block} {n : Nat} (h : b.CycleOk n) (hn : n ≤ 2) :
    ({ b with cycleLen := b.cycleLen + b.pitch } : Block).CycleOk (n + 1) := by
  have hwide := (shortExtension_cycleOk h hn n).cycleLen_eq
  refine ⟨h.pitch_ge, h.pitch_le, h.overlap_eq, hwide, ?_⟩
  calc b.offset.toNat < b.pitch.toNat * n := h.cycleLen_eq ▸ h.offset_lt
    _ ≤ b.pitch.toNat * (n + 1) := Nat.mul_le_mul_left _ n.le_succ
    _ = (b.cycleLen + b.pitch).toNat := hwide.symm

theorem widened_cycleOk {b : Block} {n : Nat} (h : b.CycleOk n) (hn : n ≤ 2) : b.widened.CycleOk (n + 1) :=
  (extended_cycleOk h hn).of_eq rfl rfl rfl rfl

/-- A loss at counts 1 and 2 pushes the crossfade of the two windows under the ramp. -/
theorem frameLost_of_short {b : Block} {e : Nat} (he : b.eraseCnt.toNat = e) (h1 : 1 ≤ e) (h2 : e ≤ 2) :
    frameLost b
      = push { b.widened with offset := advanceOffset b.widened 80, eraseCnt := BitVec.ofNat 32 (e + 1) }
        fun i => toSample (atten (fadeInto (extractAt b) (extractAt b.widened) b.overlap.toNat) e i) := by
  rw [frameLost_eq, he, synthesize_short b h1 h2, sat32_of_lt (by omega)]
  rfl

/-- Settles O24: the old window is `e` pitches and the new one `e + 1`. -/
theorem shortExtensionGrowsTheCycle : Obligations.ShortExtensionGrowsTheCycle := by
  intro s e he h12 hcons
  have hold : s.blk.CycleOk e := by
    have hwindow := (cons_iff_cycleOk s.blk).mp hcons
    rwa [he, Nat.min_eq_left (by omega)] at hwindow
  have hnew := widened_cycleOk hold (by omega)
  have hshort := frameLost_of_short he (by omega) (by omega)
  rw [advanceOffset_of_cycleOk hnew (by omega), funext (extractAt_of_cycleOk hold (by omega)),
    funext (extractAt_of_cycleOk hnew (by omega))] at hshort
  refine ⟨_, exec_eq .frameLost s, ?registers, fun k hk => ?stitched, ?pushed⟩
  case registers =>
    have hlen : BitVec.ofNat 32 ((e + 1) * s.blk.pitch.toNat) = s.blk.widened.cycleLen := hnew.cycleLen_eq_ofNat.symm
    rw [execBlk, hshort]
    dsimp only
    rw [hlen]
    rfl
  case stitched =>
    rw [execBlk, hshort]
    exact stitch_pbuf_get (extended_cycleOk hold (by omega)) (by omega) hk
  case pushed =>
    rw [execBlk, hshort]
    exact framePushed_push rfl _

/-! ### O23: the burst start (R112, R113) -/

/-- The block burst start reads its frame from, for an estimate `r`: the snapshot armed and stitched. -/
def Block.armed (b : Block) (r : PEResult) : Block := stitch (arm { b with pbuf := b.hist } r)

/-- A first loss pushes the first cycle of the armed block. -/
theorem frameLost_of_idle_armed {b : Block} {r : PEResult} (h : b.eraseCnt = 0) (hr : pe b.hist.at = r) :
    frameLost b = push { b.armed r with offset := advanceOffset (b.armed r) 80, eraseCnt := 1 }
      fun i => toSample (extractAt (b.armed r) i) := by
  rw [frameLost_of_idle h, burstStart_eq, hr]
  rfl

theorem armed_cycleOk (b : Block) {r : PEResult} (hge : 40 ≤ r.pitch) (hle : r.pitch ≤ 120) : (b.armed r).CycleOk 1 :=
  (arm_cycleOk { b with pbuf := b.hist } hge hle).of_eq rfl rfl rfl rfl

theorem armed_pitch_toNat (b : Block) {r : PEResult} (hle : r.pitch ≤ 120) : (b.armed r).pitch.toNat = r.pitch :=
  toNat_ofNat_of_le hle

theorem armed_offset_toNat (b : Block) (r : PEResult) : (b.armed r).offset.toNat = 0 := rfl

theorem arm_overlap_div (b : Block) (r : PEResult) : (arm b r).overlap = BitVec.ofNat 32 (r.pitch / 4) := by
  rw [arm_overlap, Nat.shiftRight_eq_div_pow]

theorem arm_overlap_toNat (b : Block) {r : PEResult} (hle : r.pitch ≤ 120) : (arm b r).overlap.toNat = r.pitch / 4 := by
  rw [arm_overlap_div, toNat_ofNat_of_le (by omega)]

/-- Step 4 captures the last quarter of a pitch of the snapshot (R112). -/
theorem arm_lastq_get (b : Block) {r : PEResult} (hle : r.pitch ≤ 120) {k : Nat} (hk : k < 30) :
    (arm b r).lastq.get k = if k < r.pitch / 4 then b.pbuf.get (390 - r.pitch / 4 + k) else 0 := by
  have hoverlap := arm_overlap_toNat b hle
  rw [arm_overlap] at hoverlap
  rw [arm_lastq, capturedLastq_get, if_pos hk]
  dsimp only
  rw [hoverlap, writePE_pbuf]

/-- The armed block's Pitch Buffer is the snapshot with its own last quarter blended into what precedes the cycle
(R113). -/
theorem armed_pbuf_get (b : Block) {r : PEResult} (hge : 40 ≤ r.pitch) (hle : r.pitch ≤ 120) {k : Nat} (hk : k < 390) :
    (b.armed r).pbuf.get k =
      if k < 390 - r.pitch / 4 then b.hist.get k
      else toSample (blend (fun i => b.hist.at (390 - r.pitch / 4 + i))
        (fun i => b.hist.at (390 - r.pitch - r.pitch / 4 + i)) (r.pitch / 4) (k - (390 - r.pitch / 4))) := by
  have hpitch : (arm { b with pbuf := b.hist } r).pitch.toNat = r.pitch := toNat_ofNat_of_le hle
  rw [Block.armed, stitch_pbuf_get (arm_cycleOk _ hge hle) (by decide) hk, arm_overlap_toNat _ hle, hpitch, Nat.one_mul]
  by_cases hhead : k < 390 - r.pitch / 4
  · rw [if_pos hhead, if_pos hhead]
    rfl
  · rw [if_neg hhead, if_neg hhead]
    have htail : (arm { b with pbuf := b.hist } r).lastq.at (k - (390 - r.pitch / 4))
        = b.hist.at (390 - r.pitch / 4 + (k - (390 - r.pitch / 4))) := by
      rw [Memory.at, arm_lastq_get _ hle (by omega), if_pos (by omega)]
      rfl
    exact congrArg toSample (blend_congr_left htail _ _)

/-- The first frame is the cycle of one pitch from its start (R112). -/
theorem extractAt_armed (b : Block) {r : PEResult} (hge : 40 ≤ r.pitch) (hle : r.pitch ≤ 120) (i : Nat) :
    toSample (extractAt (b.armed r) i) = (b.armed r).pbuf.get (390 - r.pitch + i % r.pitch) := by
  rw [extractAt_of_cycleOk (armed_cycleOk b hge hle) (by decide), armed_pitch_toNat b hle, Nat.one_mul, Memory.at,
    toSample_toInt]
  rw [armed_offset_toNat, Nat.zero_add]

theorem advanceOffset_armed (b : Block) {r : PEResult} (hge : 40 ≤ r.pitch) (hle : r.pitch ≤ 120) (size : Nat) :
    advanceOffset (b.armed r) size = BitVec.ofNat 32 (size % r.pitch) := by
  rw [advanceOffset_of_cycleOk (armed_cycleOk b hge hle) (by decide), armed_pitch_toNat b hle, Nat.one_mul,
    armed_offset_toNat, Nat.zero_add]

/-- Settles O23: the loss pushes the armed block's first cycle, for whatever estimate of the estimator's range. -/
theorem burstStartRebuildsEngine : Obligations.BurstStartRebuildsEngine := by
  intro s h0
  dsimp only
  obtain ⟨hge, hle⟩ := pe_pitch_range s.blk.hist.at
  have hstart := frameLost_of_idle_armed h0 rfl
  generalize pe s.blk.hist.at = r at hge hle hstart ⊢
  rw [advanceOffset_armed _ hge hle, funext fun i => extractAt_armed _ hge hle i] at hstart
  refine ⟨_, exec_eq .frameLost s, ?registers, fun k hk => ?captured, fun k hk => ?stitched, ?pushed⟩
  all_goals rw [execBlk, hstart]
  case registers =>
    rw [← arm_overlap_div { s.blk with pbuf := s.blk.hist } r]
    rfl
  case captured => exact arm_lastq_get _ hle hk
  case stitched => exact armed_pbuf_get _ hge hle hk
  case pushed => exact framePushed_push rfl _

/-! ### O11: the probe of the next burst (R112, R126) -/

/-- After `snap` the estimator runs on the copy of `HIST` (R101, R126). -/
theorem runCommands_snap_peRun (s : State) :
    runCommands [.snap, .peRun] s
      = .next (s.withBlk (writePE { s.blk with pbuf := s.blk.hist } (pe s.blk.hist.at))) := rfl

/-- Settles O11: both runs write the estimate of `HIST`. -/
theorem snapThenPeRunPredictsBurst : Obligations.SnapThenPeRunPredictsBurst := by
  intro s h0
  have hstart := frameLost_of_idle_armed h0 rfl
  refine ⟨_, _, runCommands_snap_peRun s, runCommands_frameLost 1 s, ?_⟩
  rw [Function.iterate_one, hstart]
  generalize pe s.blk.hist.at = r
  exact ⟨rfl, rfl, rfl, rfl, rfl, rfl, rfl, rfl⟩

/-! ### O32: a lost frame and `FIN` (R111) -/

theorem burstStart_withFin (b : Block) (m : Memory) :
    burstStart { b with fin := m } = ((burstStart b).1, { (burstStart b).2 with fin := m }) := by
  rw [burstStart_eq, burstStart_eq]
  generalize pe b.hist.at = r
  rfl

/-- No regime reads `FIN` or writes it (R111). -/
theorem synthesize_withFin (b : Block) (m : Memory) (e : Nat) :
    synthesize { b with fin := m } e = ((synthesize b e).1, { (synthesize b e).2 with fin := m }) := by
  obtain rfl | ⟨h1, h2⟩ | ⟨h3, h5⟩ | h6 : e = 0 ∨ (1 ≤ e ∧ e ≤ 2) ∨ (3 ≤ e ∧ e ≤ 5) ∨ 6 ≤ e := by omega
  · exact burstStart_withFin b m
  · rw [synthesize_short _ h1 h2, synthesize_short _ h1 h2]
    rfl
  · rw [synthesize_steady _ h3 h5, synthesize_steady _ h3 h5]
    rfl
  · rw [synthesize_mute _ h6, synthesize_mute _ h6]
    rfl

theorem frameLost_withFin (b : Block) (m : Memory) : frameLost { b with fin := m } = { frameLost b with fin := m } := by
  rw [frameLost_eq, frameLost_eq, synthesize_withFin]
  rfl

/-- Settles O32: a loss passes `FIN` on unread. -/
theorem lostFrameIgnoresFrameInput : Obligations.LostFrameIgnoresFrameInput := by
  intro s m
  refine ⟨_, exec_eq .frameLost s, ?_⟩
  rw [exec_eq, execBlk, execBlk, frameLost_withFin]
  rfl

end Sys2Proof.Machine

/-! The family of statements about the history buffer (46_history_buffer.md). The pushed frame lies at
`HIST[310 .. 390)` and the tap reads `HIST[280 .. 360)`, so 50 of its samples go out with their own command; the next
push moves it down by 80, which brings the other 30 to the start of the tap. -/

namespace Sys2Proof.Machine

/-! ### The output stream (R123, R124) -/

/-- Every frame command, genuine or lost, pushes one frame. -/
theorem execBlk_framePushed {i : Instr} (hi : i = .frameGood ∨ i = .frameLost) (b : Block) :
    ∃ f, FramePushed b (execBlk i b) f := by
  obtain rfl | rfl := hi
  · exact frameGood_framePushed b
  · exact frameLost_framePushed b

/-- The tap of a push ends with the first 50 samples of the frame just pushed. -/
theorem FramePushed.fout_of_pushed {b b' : Block} {f : Nat → Sample} (h : FramePushed b b' f) {k : Nat}
    (hk : k < 50) : b'.fout.get (k + 30) = b'.hist.get (310 + k) := by
  obtain ⟨_, _, htap⟩ := h
  have hindex : 280 + (k + 30) = 310 + k := by omega
  rw [htap _ (by omega), hindex]

/-- The tap of a push starts with the last 30 samples of the frame pushed before it. -/
theorem FramePushed.fout_of_previous {b b' : Block} {f : Nat → Sample} (h : FramePushed b b' f) {k : Nat}
    (h50 : 50 ≤ k) (h80 : k < 80) : b'.fout.get (k - 50) = b.hist.get (310 + k) := by
  obtain ⟨hshift, _, htap⟩ := h
  have hindex : 280 + (k - 50) + 80 = 310 + k := by omega
  rw [htap _ (by omega), hshift _ (by omega), hindex]

/-- Settles O31: the first command's tap shows its own frame, the second one's tap the frame before its own. -/
theorem outputTapDelaysThirtySamples : Obligations.OutputTapDelaysThirtySamples := by
  intro s i j hi hj
  obtain ⟨_, hfirst⟩ := execBlk_framePushed hi s.blk
  obtain ⟨_, hsecond⟩ := execBlk_framePushed hj (execBlk i s.blk)
  exact ⟨_, _, exec_eq i s, exec_eq j _, fun _ hk => hfirst.fout_of_pushed hk,
    fun _ h50 h80 => hsecond.fout_of_previous h50 h80⟩

/-! ### `snap` (R126) -/

/-- Settles O9: it is the `snap` case of the block that each command leaves. -/
theorem snapCopiesHistory : Obligations.SnapCopiesHistory := exec_eq .snap

end Sys2Proof.Machine

/-! The family of statements about errors, resets and independence (60_exceptions.md, 70_reset_and_hazards.md). Each
says what an event does not touch: a step short of a clear or a reset the recorded error, a step of one block the other
blocks, the History Buffer the synthesis in a burst. -/

namespace Sys2Proof.Machine

/-! ### O44: the recorded error is kept (R134, R138) -/

/-- The block holds an error, and its code is `c`. -/
def Block.Records (b : Block) (c : ErrCode) : Prop := b.err = true ∧ b.errCode = c

theorem clearsError_of_status {a : BusAddr} {w : Word} (ha : decodeAddr a = .reg .status) (hw : w.getLsbD 1 = true) :
    (Turn.write a w).clearsError = true := by
  rw [Turn.clearsError, hw, Bool.and_true]
  exact decide_eq_true ha

theorem raiseError_records {b : Block} {c : ErrCode} (h : b.Records c) (d : ErrCode) : (raiseError b d).Records c := by
  rwa [raiseError_of_set h.1]

theorem withMem_records {b : Block} {c : ErrCode} (h : b.Records c) (g : Region) (m : Memory) :
    (b.withMem g m).Records c := by
  cases g <;> exact h

/-- Of the cases of a write only the reset and the clear lose a recorded error (R53). -/
theorem memWrite_records {b : Block} {c : ErrCode} {a : BusAddr} {w : Word} (h : b.Records c)
    (hclear : (Turn.write a w).clearsError = false) (hres : (Turn.write a w).resets = false) :
    (memWrite b a w).Records c := by
  obtain ⟨d, e⟩ | ⟨ha, hw, _⟩ | ⟨ha, hw, _⟩ | ⟨_, _, _, e⟩ | ⟨g, k, _, _, _, _, _, e⟩ | e := memWrite_cases b a w
  · rw [e]
    exact raiseError_records h d
  · exact absurd (resets_of_ctrl ha hw) (ne_true_of_eq_false hres)
  · exact absurd (clearsError_of_status ha hw) (ne_true_of_eq_false hclear)
  · rw [e]
    exact h
  · rw [e]
    exact withMem_records h g _
  · rw [e]
    exact h

theorem memRead_records {s : State} {c : ErrCode} (h : s.blk.Records c) (a : BusAddr) : (memRead s a).blk.Records c := by
  rw [memRead_blk]
  split
  · exact raiseError_records h _
  · exact h

theorem execBlk_records {b : Block} {c : ErrCode} (h : b.Records c) (i : Instr) : (execBlk i b).Records c := by
  obtain ⟨herr, hcode⟩ := execBlk_errorRecord i b
  exact ⟨herr.trans h.1, hcode.trans h.2⟩

/-- Through the cases of a step: a recorded error outlasts every turn that neither clears nor resets. -/
theorem step_records {s t : State} {c : ErrCode} (hr : s.inReset = false) (hstep : step s = .next t)
    (hkeep : ∀ u ∈ s.turns.head?, u.clearsError = false ∧ u.resets = false) (h : s.blk.Records c) :
    t.blk.Records c := by
  obtain ⟨hr', _⟩ | ⟨_, _, rfl⟩ | ⟨_, i, _, _, _, rfl⟩ | ⟨a, _, _, _, rfl⟩ | ⟨a, w, _, _, hts, rfl⟩
    | ⟨_, _, hts, _⟩ | ⟨_, _, _, rfl⟩ := step_cases hstep
  · exact absurd hr' (ne_true_of_eq_false hr)
  · exact h
  · exact execBlk_records h i
  · exact memRead_records h a
  · obtain ⟨hclear, hres⟩ := hkeep (.write a w) (by rw [hts]; rfl)
    exact memWrite_records h hclear hres
  · obtain ⟨_, hres⟩ := hkeep .reset (by rw [hts]; rfl)
    cases hres
  · exact h

/-- Settles O44: the raise by its two cases, the rest by the cases of a step. -/
theorem firstErrorIsKeptUntilCleared : Obligations.FirstErrorIsKeptUntilCleared :=
  ⟨fun _ c => ⟨fun h => raiseError_of_clear h c, fun h => raiseError_of_set h c⟩,
    fun _ _ hr herr hstep hkeep => step_records hr hstep hkeep ⟨herr, rfl⟩⟩

/-! ### O39: the soft reset (R22, R148) -/

/-- Settles O39: `CTRL` is decoded before anything of the state is looked at, and only bit 0 of the word counts. -/
theorem softResetRestoresEveryField : Obligations.SoftResetRestoresEveryField := by
  intro b w
  refine ⟨fun hw => ?_, fun hw => ?_⟩
  · rw [memWrite_of_ctrl decodeAddr_ctrl, if_pos hw]
    rfl
  · rw [memWrite_of_ctrl decodeAddr_ctrl, if_neg (ne_true_of_eq_false hw)]

/-! ### O56: the blocks of a platform (R144) -/

/-- A platform's step writes the place of the block that makes it, or nothing where there is no such block. -/
theorem stepAt_cases {p q : Platform} {k : Nat} (h : p.stepAt k = .next q) :
    (p[k]? = none ∧ q = p)
      ∨ ∃ x t, p[k]? = some x ∧ step x.st = .next t ∧ q = p.set k { x with st := t } := by
  unfold Platform.stepAt at h
  cases hx : p[k]? with
  | none =>
    rw [hx] at h
    cases h
    exact Or.inl ⟨rfl, rfl⟩
  | some x =>
    simp only [hx] at h
    cases ht : step x.st with
    | next t =>
      rw [ht] at h
      cases h
      exact Or.inr ⟨x, t, rfl, ht, rfl⟩
    | fault r => rw [ht] at h; cases h
    | refused r => rw [ht] at h; cases h

/-- Settles O56. -/
theorem instancesAreIndependent : Obligations.InstancesAreIndependent := by
  intro p q k j hstep hj
  obtain ⟨_, rfl⟩ | ⟨x, t, _, _, rfl⟩ := stepAt_cases hstep
  · rfl
  · exact List.getElem?_set_ne hj.symm

/-! ### O33: a burst and `HIST` (R154) -/

/-- Only burst start reads `HIST` (R112), and no regime writes it. -/
theorem synthesize_withHist (b : Block) (m : Memory) {e : Nat} (h : e ≠ 0) :
    synthesize { b with hist := m } e = ((synthesize b e).1, { (synthesize b e).2 with hist := m }) := by
  obtain ⟨h1, h2⟩ | ⟨h3, h5⟩ | h6 : (1 ≤ e ∧ e ≤ 2) ∨ (3 ≤ e ∧ e ≤ 5) ∨ 6 ≤ e := by omega
  · rw [synthesize_short _ h1 h2, synthesize_short _ h1 h2]
    rfl
  · rw [synthesize_steady _ h3 h5, synthesize_steady _ h3 h5]
    rfl
  · rw [synthesize_mute _ h6, synthesize_mute _ h6]
    rfl

/-- In a burst a loss with another `HIST` pushes the same frame into that `HIST`, and does the rest as before. -/
theorem frameLost_withHist {b : Block} (h : b.eraseCnt ≠ 0) (m : Memory) :
    frameLost { b with hist := m }
      = push { frameLost b with hist := m } fun i => toSample ((synthesize b b.eraseCnt.toNat).1 i) := by
  rw [frameLost_eq, frameLost_eq, synthesize_withHist b m (eraseCnt_toNat_ne_zero h)]
  rfl

/-- The frame of a push ends the History Buffer, whatever was in it (R123). -/
theorem push_hist_get_pushed (b : Block) (f : Nat → Sample) {i : Nat} (hi : i < 80) :
    (push b f).hist.get (310 + i) = f i := by
  obtain ⟨_, hframe, _⟩ := framePushed_push (b := b) rfl f
  exact hframe i hi

/-- Settles O33: the two pushes differ in the buffer they shift only, and what they shift in lies at its end. -/
theorem burstIgnoresHistory : Obligations.BurstIgnoresHistory := by
  intro s m he
  refine ⟨_, _, exec_eq .frameLost s, exec_eq .frameLost _, ?rest, fun i hi => ?pushed⟩
  case rest =>
    rw [execBlk, frameLost_withHist he m]
    rfl
  case pushed =>
    rw [withBlk_blk, withBlk_blk, execBlk, execBlk, frameLost_withHist he m, frameLost_eq s.blk,
      push_hist_get_pushed _ _ hi, push_hist_get_pushed _ _ hi]

end Sys2Proof.Machine
